-- ==== Sys2Proof/Word.lean ====
section
/-! DEFINITION. The data widths of ChipSharp CORE (spec/00_scope.md R5) and its plainest arithmetic. -/

namespace Sys2Proof

/-- A general register's, a timer's or a memory cell's value: `REG_W`, `TIMER_W`, one byte (R5). -/
abbrev Byte := BitVec 8

/-- The width of `pc`, `I`, a stack entry, `KEYS` and an instruction word: 16 bits (R5). -/
abbrev Word := BitVec 16

/-- A 12-bit immediate address `nnn` (R47). -/
abbrev Addr12 := BitVec 12

/-- A general register's index, `NREGS` = 16 (R5, R10): always in range, because it comes from a
4-bit field. -/
abbrev Reg := Fin 16

/-- A 4-bit count or key number, 0 to 15 (`n` of `Dxyn`, R47; the key numbers of R18). -/
abbrev Nibble := Fin 16

/-- `VF`, the register several instructions overwrite with a flag (R11). -/
def flagReg : Reg := 15

end Sys2Proof
end

