-- ==== Sys2Proof/Syntax.lean ====
section
/-! DEFINITION. The ChipSharp instruction set as syntax: one constructor per row of
spec/opcode_table.json (spec/30_encoding.md R50), in the table's order. A field the operation ignores
(`ign`, R51) is kept, so that an instruction stands for exactly one word (log entry 10). -/

namespace Sys2Proof

/-- The 34 instructions (R50). `x`, `y` are register indices, `nn`, `nnn`, `n` the immediates of R47. -/
inductive Instr where
  | cls
  | ret
  | jp (nnn : Addr12)
  | call (nnn : Addr12)
  | sei (x : Reg) (nn : Byte)
  | snei (x : Reg) (nn : Byte)
  | ser (x y : Reg) (ign : Nibble)
  | ldi (x : Reg) (nn : Byte)
  | addi (x : Reg) (nn : Byte)
  | mov (x y : Reg)
  | or (x y : Reg)
  | and (x y : Reg)
  | xor (x y : Reg)
  | add (x y : Reg)
  | sub (x y : Reg)
  | shr (x : Reg) (ign : Nibble)
  | subn (x y : Reg)
  | shl (x : Reg) (ign : Nibble)
  | sner (x y : Reg) (ign : Nibble)
  | lda (nnn : Addr12)
  | jpv0 (nnn : Addr12)
  | rnd (x : Reg) (nn : Byte)
  | drw (x y : Reg) (n : Nibble)
  | skp (x : Reg)
  | sknp (x : Reg)
  | lddt (x : Reg)
  | wkey (x : Reg)
  | stdt (x : Reg)
  | stst (x : Reg)
  | adda (x : Reg)
  | font (x : Reg)
  | bcd (x : Reg)
  | stm (x : Reg)
  | ldm (x : Reg)
deriving DecidableEq, Repr

end Sys2Proof
end

