-- ==== Sys2Proof/WellFormed.lean ====
section
/-! DEFINITION. The checks on operands: every field fits the bits the encoding gives it
(spec/30_encoding.md R47, R49). The operand TYPES of `Instr` already carry these bounds, so every
`Instr` passes (`Instr.wf_all` in Laws/Encoding.lean); the checks are on plain numbers so that they
can also be asked of a number that is no operand yet, and they refuse one that does not fit. -/

namespace Sys2Proof.WellFormed

/-- A register index fits its 4-bit field (R47: `x`, `y`). -/
def regOk (k : Nat) : Bool := k < 16

/-- A nibble fits its 4-bit field (R47: `n`, and the ignored fields of R51). -/
def nibbleOk (k : Nat) : Bool := k < 16

/-- An immediate byte fits its 8-bit field (R47: `nn`). -/
def byteOk (k : Nat) : Bool := k < 256

/-- An immediate address fits its 12-bit field (R47: `nnn`). -/
def addrOk (k : Nat) : Bool := k < 4096

end Sys2Proof.WellFormed

namespace Sys2Proof

/-- Every operand of the instruction fits its field (R47). -/
def Instr.wf : Instr → Bool
  | .cls => true
  | .ret => true
  | .jp nnn => WellFormed.addrOk nnn.toNat
  | .call nnn => WellFormed.addrOk nnn.toNat
  | .sei x nn => WellFormed.regOk x.val && WellFormed.byteOk nn.toNat
  | .snei x nn => WellFormed.regOk x.val && WellFormed.byteOk nn.toNat
  | .ser x y g => WellFormed.regOk x.val && WellFormed.regOk y.val && WellFormed.nibbleOk g.val
  | .ldi x nn => WellFormed.regOk x.val && WellFormed.byteOk nn.toNat
  | .addi x nn => WellFormed.regOk x.val && WellFormed.byteOk nn.toNat
  | .mov x y => WellFormed.regOk x.val && WellFormed.regOk y.val
  | .or x y => WellFormed.regOk x.val && WellFormed.regOk y.val
  | .and x y => WellFormed.regOk x.val && WellFormed.regOk y.val
  | .xor x y => WellFormed.regOk x.val && WellFormed.regOk y.val
  | .add x y => WellFormed.regOk x.val && WellFormed.regOk y.val
  | .sub x y => WellFormed.regOk x.val && WellFormed.regOk y.val
  | .shr x g => WellFormed.regOk x.val && WellFormed.nibbleOk g.val
  | .subn x y => WellFormed.regOk x.val && WellFormed.regOk y.val
  | .shl x g => WellFormed.regOk x.val && WellFormed.nibbleOk g.val
  | .sner x y g => WellFormed.regOk x.val && WellFormed.regOk y.val && WellFormed.nibbleOk g.val
  | .lda nnn => WellFormed.addrOk nnn.toNat
  | .jpv0 nnn => WellFormed.addrOk nnn.toNat
  | .rnd x nn => WellFormed.regOk x.val && WellFormed.byteOk nn.toNat
  | .drw x y n => WellFormed.regOk x.val && WellFormed.regOk y.val && WellFormed.nibbleOk n.val
  | .skp x => WellFormed.regOk x.val
  | .sknp x => WellFormed.regOk x.val
  | .lddt x => WellFormed.regOk x.val
  | .wkey x => WellFormed.regOk x.val
  | .stdt x => WellFormed.regOk x.val
  | .stst x => WellFormed.regOk x.val
  | .adda x => WellFormed.regOk x.val
  | .font x => WellFormed.regOk x.val
  | .bcd x => WellFormed.regOk x.val
  | .stm x => WellFormed.regOk x.val
  | .ldm x => WellFormed.regOk x.val

end Sys2Proof
end

