-- ==== Sys2Proof/Decode.lean ====
section
/-! DEFINITION. The decoder, total on every word and every list of bytes, and the encoder
(spec/30_encoding.md R45, R47 to R52). -/

namespace Sys2Proof

/-- Why the decoder rejects: an illegal word of one of the four families that have some (R52), or a
byte list too short to hold a word. The spec has one class, *illegal*; the four names only say in which
row of R52's table the word stands (log entry 15). -/
inductive DecodeReject where
  /-- a `0nnn` other than `00E0`, `00EE` (R52, R62) -/
  | family0 (w : Word)
  /-- an `8xyN` with `N` in 8, 9, A, B, C, D, F (R52, R86) -/
  | family8 (w : Word)
  /-- an `Exnn` with `nn` not 9E, A1 (R52, R102) -/
  | familyE (w : Word)
  /-- an `Fxnn` with `nn` none of the nine legal bytes (R52, R105) -/
  | familyF (w : Word)
  /-- fewer than two bytes: no instruction word is there -/
  | truncated
deriving DecidableEq, Repr

/-- The two bytes of a word, the byte at the lower address first: it holds bits 15 to 8 (R31). -/
def joinWord (hi lo : Byte) : Word := hi.setWidth 16 <<< 8 ||| lo.setWidth 16

/-- The byte of a word that lies at the lower address (R31). -/
def hiByte (w : Word) : Byte := w.extractLsb' 8 8

/-- The byte of a word that lies at the higher address (R31). -/
def loByte (w : Word) : Byte := w.extractLsb' 0 8

/-- A word laid out as memory holds it (R31, R45). -/
def wordBytes (w : Word) : List Byte := [hiByte w, loByte w]

/-- Field `op`, `w[15:12]` (R47). -/
def fieldOp (w : Word) : BitVec 4 := w.extractLsb' 12 4

/-- Field `x`, `w[11:8]` (R47). -/
def fieldX (w : Word) : Reg := (w.extractLsb' 8 4).toFin

/-- Field `y`, `w[7:4]` (R47). -/
def fieldY (w : Word) : Reg := (w.extractLsb' 4 4).toFin

/-- Field `n`, `w[3:0]` (R47). -/
def fieldN (w : Word) : Nibble := (w.extractLsb' 0 4).toFin

/-- Field `nn`, `w[7:0]` (R47). -/
def fieldNN (w : Word) : Byte := w.extractLsb' 0 8

/-- Field `nnn`, `w[11:0]` (R47). -/
def fieldNNN (w : Word) : Addr12 := w.extractLsb' 0 12

/-- Family 0x0: two words, every other illegal (R50, R62). -/
def decodeFamily0 (w : Word) : Except DecodeReject Instr :=
  if w = 0x00E0#16 then .ok .cls
  else if w = 0x00EE#16 then .ok .ret
  else .error (.family0 w)

/-- Family 0x8, selected by the low nibble (R50, R86). -/
def decodeFamily8 (w : Word) : Except DecodeReject Instr :=
  match (fieldN w).val with
  | 0x0 => .ok (.mov (fieldX w) (fieldY w))
  | 0x1 => .ok (.or (fieldX w) (fieldY w))
  | 0x2 => .ok (.and (fieldX w) (fieldY w))
  | 0x3 => .ok (.xor (fieldX w) (fieldY w))
  | 0x4 => .ok (.add (fieldX w) (fieldY w))
  | 0x5 => .ok (.sub (fieldX w) (fieldY w))
  | 0x6 => .ok (.shr (fieldX w) (fieldY w))
  | 0x7 => .ok (.subn (fieldX w) (fieldY w))
  | 0xE => .ok (.shl (fieldX w) (fieldY w))
  | _ => .error (.family8 w)

/-- Family 0xE, selected by the low byte (R50, R102). -/
def decodeFamilyE (w : Word) : Except DecodeReject Instr :=
  match (fieldNN w).toNat with
  | 0x9E => .ok (.skp (fieldX w))
  | 0xA1 => .ok (.sknp (fieldX w))
  | _ => .error (.familyE w)

/-- Family 0xF, selected by the low byte (R50, R105). -/
def decodeFamilyF (w : Word) : Except DecodeReject Instr :=
  match (fieldNN w).toNat with
  | 0x07 => .ok (.lddt (fieldX w))
  | 0x0A => .ok (.wkey (fieldX w))
  | 0x15 => .ok (.stdt (fieldX w))
  | 0x18 => .ok (.stst (fieldX w))
  | 0x1E => .ok (.adda (fieldX w))
  | 0x29 => .ok (.font (fieldX w))
  | 0x33 => .ok (.bcd (fieldX w))
  | 0x55 => .ok (.stm (fieldX w))
  | 0x65 => .ok (.ldm (fieldX w))
  | _ => .error (.familyF w)

/-- `Decode(w)`: the top nibble selects the family (R50); the low nibble of families 0x5, 0x9 and the
`y` of the two shifts are read but select nothing (R51). -/
def decodeWord (w : Word) : Except DecodeReject Instr :=
  match (fieldOp w).toNat with
  | 0x0 => decodeFamily0 w
  | 0x1 => .ok (.jp (fieldNNN w))
  | 0x2 => .ok (.call (fieldNNN w))
  | 0x3 => .ok (.sei (fieldX w) (fieldNN w))
  | 0x4 => .ok (.snei (fieldX w) (fieldNN w))
  | 0x5 => .ok (.ser (fieldX w) (fieldY w) (fieldN w))
  | 0x6 => .ok (.ldi (fieldX w) (fieldNN w))
  | 0x7 => .ok (.addi (fieldX w) (fieldNN w))
  | 0x8 => decodeFamily8 w
  | 0x9 => .ok (.sner (fieldX w) (fieldY w) (fieldN w))
  | 0xA => .ok (.lda (fieldNNN w))
  | 0xB => .ok (.jpv0 (fieldNNN w))
  | 0xC => .ok (.rnd (fieldX w) (fieldNN w))
  | 0xD => .ok (.drw (fieldX w) (fieldY w) (fieldN w))
  | 0xE => decodeFamilyE w
  | _ => decodeFamilyF w

/-- The decoder on bytes: the instruction the first two hold, and the bytes after it (R31, R45). -/
def decodeBytes : List Byte → Except DecodeReject (Instr × List Byte)
  | hi :: lo :: rest =>
    match decodeWord (joinWord hi lo) with
    | .ok i => .ok (i, rest)
    | .error e => .error e
  | _ => .error .truncated

/-- The four bits of a register index or a nibble (R47). -/
def nibbleBits (k : Fin 16) : BitVec 4 := BitVec.ofFin k

/-- Format NNN (R48). -/
def encNNN (op : BitVec 4) (nnn : Addr12) : Word := op.setWidth 16 <<< 12 ||| nnn.setWidth 16

/-- Format XNN (R48); format X is the case where `nn` is fixed. -/
def encXNN (op : BitVec 4) (x : Reg) (nn : Byte) : Word :=
  op.setWidth 16 <<< 12 ||| (nibbleBits x).setWidth 16 <<< 8 ||| nn.setWidth 16

/-- Formats XY and XYN (R48). -/
def encXYN (op : BitVec 4) (x y : Reg) (n : Nibble) : Word :=
  op.setWidth 16 <<< 12 ||| (nibbleBits x).setWidth 16 <<< 8 ||| (nibbleBits y).setWidth 16 <<< 4 |||
    (nibbleBits n).setWidth 16

/-- The word of an instruction, from the opcode map (R48, R50). -/
def encode : Instr → Word
  | .cls => 0x00E0
  | .ret => 0x00EE
  | .jp nnn => encNNN 0x1 nnn
  | .call nnn => encNNN 0x2 nnn
  | .sei x nn => encXNN 0x3 x nn
  | .snei x nn => encXNN 0x4 x nn
  | .ser x y g => encXYN 0x5 x y g
  | .ldi x nn => encXNN 0x6 x nn
  | .addi x nn => encXNN 0x7 x nn
  | .mov x y => encXYN 0x8 x y 0x0
  | .or x y => encXYN 0x8 x y 0x1
  | .and x y => encXYN 0x8 x y 0x2
  | .xor x y => encXYN 0x8 x y 0x3
  | .add x y => encXYN 0x8 x y 0x4
  | .sub x y => encXYN 0x8 x y 0x5
  | .shr x g => encXYN 0x8 x g 0x6
  | .subn x y => encXYN 0x8 x y 0x7
  | .shl x g => encXYN 0x8 x g 0xE
  | .sner x y g => encXYN 0x9 x y g
  | .lda nnn => encNNN 0xA nnn
  | .jpv0 nnn => encNNN 0xB nnn
  | .rnd x nn => encXNN 0xC x nn
  | .drw x y n => encXYN 0xD x y n
  | .skp x => encXNN 0xE x 0x9E
  | .sknp x => encXNN 0xE x 0xA1
  | .lddt x => encXNN 0xF x 0x07
  | .wkey x => encXNN 0xF x 0x0A
  | .stdt x => encXNN 0xF x 0x15
  | .stst x => encXNN 0xF x 0x18
  | .adda x => encXNN 0xF x 0x1E
  | .font x => encXNN 0xF x 0x29
  | .bcd x => encXNN 0xF x 0x33
  | .stm x => encXNN 0xF x 0x55
  | .ldm x => encXNN 0xF x 0x65

/-- A row of the opcode map: its mnemonic, and the mask and match of R50 ("the word `w` is this
instruction exactly when `w & mask = match`"). -/
structure OpcodeRow where
  mnemonic : String
  mask : Word
  pattern : Word
deriving DecidableEq, Repr

/-- The row of R50 an instruction belongs to, copied from the map and used by no other definition of
the decoder or the encoder: it is a second reading of the map, for statements to hold them against. -/
def Instr.row : Instr → OpcodeRow
  | .cls => ⟨"CLS", 0xFFFF, 0x00E0⟩
  | .ret => ⟨"RET", 0xFFFF, 0x00EE⟩
  | .jp _ => ⟨"JP", 0xF000, 0x1000⟩
  | .call _ => ⟨"CALL", 0xF000, 0x2000⟩
  | .sei _ _ => ⟨"SEI", 0xF000, 0x3000⟩
  | .snei _ _ => ⟨"SNEI", 0xF000, 0x4000⟩
  | .ser _ _ _ => ⟨"SER", 0xF000, 0x5000⟩
  | .ldi _ _ => ⟨"LDI", 0xF000, 0x6000⟩
  | .addi _ _ => ⟨"ADDI", 0xF000, 0x7000⟩
  | .mov _ _ => ⟨"MOV", 0xF00F, 0x8000⟩
  | .or _ _ => ⟨"OR", 0xF00F, 0x8001⟩
  | .and _ _ => ⟨"AND", 0xF00F, 0x8002⟩
  | .xor _ _ => ⟨"XOR", 0xF00F, 0x8003⟩
  | .add _ _ => ⟨"ADD", 0xF00F, 0x8004⟩
  | .sub _ _ => ⟨"SUB", 0xF00F, 0x8005⟩
  | .shr _ _ => ⟨"SHR", 0xF00F, 0x8006⟩
  | .subn _ _ => ⟨"SUBN", 0xF00F, 0x8007⟩
  | .shl _ _ => ⟨"SHL", 0xF00F, 0x800E⟩
  | .sner _ _ _ => ⟨"SNER", 0xF000, 0x9000⟩
  | .lda _ => ⟨"LDA", 0xF000, 0xA000⟩
  | .jpv0 _ => ⟨"JPV0", 0xF000, 0xB000⟩
  | .rnd _ _ => ⟨"RND", 0xF000, 0xC000⟩
  | .drw _ _ _ => ⟨"DRW", 0xF000, 0xD000⟩
  | .skp _ => ⟨"SKP", 0xF0FF, 0xE09E⟩
  | .sknp _ => ⟨"SKNP", 0xF0FF, 0xE0A1⟩
  | .lddt _ => ⟨"LDDT", 0xF0FF, 0xF007⟩
  | .wkey _ => ⟨"WKEY", 0xF0FF, 0xF00A⟩
  | .stdt _ => ⟨"STDT", 0xF0FF, 0xF015⟩
  | .stst _ => ⟨"STST", 0xF0FF, 0xF018⟩
  | .adda _ => ⟨"ADDA", 0xF0FF, 0xF01E⟩
  | .font _ => ⟨"FONT", 0xF0FF, 0xF029⟩
  | .bcd _ => ⟨"BCD", 0xF0FF, 0xF033⟩
  | .stm _ => ⟨"STM", 0xF0FF, 0xF055⟩
  | .ldm _ => ⟨"LDM", 0xF0FF, 0xF065⟩

/-- The 34 rows of R50, in its order. -/
def opcodeTable : List OpcodeRow :=
  [Instr.cls, .ret, .jp 0, .call 0, .sei 0 0, .snei 0 0, .ser 0 0 0, .ldi 0 0, .addi 0 0,
    .mov 0 0, .or 0 0, .and 0 0, .xor 0 0, .add 0 0, .sub 0 0, .shr 0 0, .subn 0 0, .shl 0 0,
    .sner 0 0 0, .lda 0, .jpv0 0, .rnd 0 0, .drw 0 0 0, .skp 0, .sknp 0, .lddt 0, .wkey 0,
    .stdt 0, .stst 0, .adda 0, .font 0, .bcd 0, .stm 0, .ldm 0].map Instr.row

/-- The instruction word of `nbits` bits whose number is `w`, every bit above `nbits` 0 (one word
holds every instruction of this machine, R45). -/
def tableWord (nbits w : Nat) : Word := BitVec.ofNat 16 (w % 2 ^ nbits)

/-- What the decoder reads from the bytes of that word, laid out as memory holds them (R31). -/
def decodeTableWord (nbits w : Nat) : Option Instr :=
  match decodeBytes (wordBytes (tableWord nbits w)) with
  | .ok (i, _) => some i
  | .error _ => none

end Sys2Proof
end

