-- ==== Sys2Proof/Config.lean ====
section
/-! DEFINITION. What the spec fixes for this hardware (spec/00_scope.md R5) and the two values it
leaves open: the random byte of `Cxnn` and the choice `KEY_PICK`. -/

namespace Sys2Proof.Config

/-- `MEM_SIZE`: addresses 0x000 to 0xFFF (R5, R30). -/
def memSize : Nat := 4096

/-- `PROG_BASE`: where an image is loaded and where execution starts (R5, R36). -/
def progBase : Nat := 0x200

/-- `MAX_PROG` = `MEM_SIZE - PROG_BASE` (R5, R142). -/
def maxProg : Nat := 3584

/-- `STACK_DEPTH` (R5, R14; the spec's decision D3). -/
def stackDepth : Nat := 16

/-- `DISP_W` (R5, R16). -/
def dispW : Nat := 64

/-- `DISP_H` (R5, R16). -/
def dispH : Nat := 32

/-- FREE VALUE: the byte of the `k`-th random draw (`draw_byte()`, R92; decision D24: "OPEN: a draw").
It has no body, so no proof can see it: a claim that mentions it holds for every sequence of draws.
Log entry 3. -/
opaque drawByte : Nat → Byte

/-- FREE VALUE: an arbitrary choice of a key for every mask; `keyPick` turns it into a legal
`KEY_PICK`. Log entry 4. -/
opaque keyChoice : Word → Nibble

/-- The lowest-numbered key at or above `k` that is down in `m`, looking at `fuel` keys; 0 if none
is (the spec's suggested instance of `KEY_PICK`, R108, used here only where `keyChoice` picks a key
that is up). -/
def lowestKey (m : Word) : (fuel k : Nat) → Nibble
  | 0, _ => 0
  | fuel + 1, k => if m.getLsbD k then Fin.ofNat 16 k else lowestKey m fuel (k + 1)

/-- `KEY_PICK` (R5, R108; decision D22): any function from a nonzero mask to the index of one of its
set bits. Every such function is `keyPick` for some `keyChoice`, and for every `keyChoice` this is
such a function, so a claim proved of it holds for every legal `KEY_PICK`. -/
def keyPick (m : Word) : Nibble :=
  if m.getLsbD (keyChoice m).val then keyChoice m else lowestKey m 16 0

end Sys2Proof.Config
end

