-- ==== Sys2Proof/Machine/State.lean ====
section
/-! DEFINITION. The machine's state as plain data (spec/10_state.md), the reasons a step can stop, and
the state after reset (R27). -/

namespace Sys2Proof.Machine

/-- The sub-cause of an `OutOfRange` fault (spec/60_exceptions.md R121). -/
inductive RangeCause where
  /-- the fetch needs a byte above 0xFFF (R32) -/
  | fetch
  /-- a data access needs a byte above 0xFFF (R33) -/
  | mem
  /-- a sprite's rectangle leaves the display (R96) -/
  | pixel
  /-- a key number above 15 (R102) -/
  | key
deriving DecidableEq, Repr

/-- A fault record, what the latch `FAULT` holds when it is not `None` (R20, R121). -/
inductive FaultRecord where
  /-- an illegal word, with the word (R52) -/
  | decodeError (w : Word)
  /-- a call with 16 return addresses on the stack (R64) -/
  | stackOverflow
  /-- a return with none (R61) -/
  | stackUnderflow
  /-- an index outside memory, the display or the keypad (R121) -/
  | outOfRange (c : RangeCause)
deriving DecidableEq, Repr

/-- `MEM` (R15, R30): the bytes that differ from 0, as (address, byte) pairs, addresses strictly
rising (`Memory.wf` in Machine/Ops.lean). -/
abbrev Memory := List Host.Cell

/-- `FB` (R16): 32 rows of 64 one-bit pixels, row `py`, column `px` (log entry 11). -/
abbrev Display := Vector (Vector Bool 64) 32

/-- The whole state of the machine (10_state.md), and two counters of the model's own. -/
structure State where
  /-- `V[0]` to `V[15]` (R10); `V[0xF]` is also the flag (R11). -/
  v : Vector Byte 16
  /-- The program counter (R12). -/
  pc : Word
  /-- The address register `I`, all 16 bits of it (R13). -/
  i : Word
  /-- The depth of the call stack, 0 to 16 (R14; log entry 7). -/
  sp : Fin 17
  /-- The stack's entries `STK[0]` to `STK[15]` (R14). -/
  stk : Vector Word 16
  /-- `MEM` (R15). -/
  mem : Memory
  /-- `FB` (R16). -/
  fb : Display
  /-- The delay timer `DT` (R17). -/
  dt : Byte
  /-- The sound timer `ST` (R17). -/
  st : Byte
  /-- `KEYS`, bit `k` = key `k` is down (R18). -/
  keys : Word
  /-- The wait-for-key latch `WAIT` (R19). -/
  wait : Bool
  /-- `WAITX`, the register the deferred load writes (R19). -/
  waitx : Reg
  /-- The fault latch `FAULT` (R20). -/
  fault : Option FaultRecord
  /-- The MODEL's own: how many random bytes have been drawn (log entry 3). -/
  draws : Nat
  /-- The MODEL's own: how many `Refresh` events have been emitted (R21; log entry 2). -/
  refreshes : Nat
deriving DecidableEq, Repr

/-- Why a step could stop with a fault of the host's interface: for no reason. Every fault the spec
gives is a NEXT state with the latch `FAULT` set (R124), and "every state has a defined `Step`"
(spec/93_implementation_defined.md), so this type has no constructor and no step ends this way
(log entry 1). Safe: there is nothing for it to hide. -/
inductive Fault where
deriving DecidableEq, Repr

/-- Why an instruction could be refused. -/
inductive Refusal where
  /-- Raised by an arm of `exec` for an instruction that has no meaning yet. Safe: it stops. No arm of
  this model raises it. -/
  | notModelled (mnemonic : String)
deriving DecidableEq, Repr

/-- What a step answers. -/
abbrev Answer := Host.Outcome State Fault Refusal

/-- The state after `Reset` (R27, R140): everything zero, `FAULT` `None`, `pc` 0x200. -/
def State.reset : State where
  v := Vector.replicate 16 0
  pc := 0x200
  i := 0
  sp := 0
  stk := Vector.replicate 16 0
  mem := []
  fb := Vector.replicate 32 (Vector.replicate 64 false)
  dt := 0
  st := 0
  keys := 0
  wait := false
  waitx := 0
  fault := none
  draws := 0
  refreshes := 0

end Sys2Proof.Machine
end

