-- ==== Sys2Proof/Machine/Ops.lean ====
section
/-! DEFINITION. The named operations over memory, registers, the stack, the display and the program
counter, fetching an instruction word, and raising a fault. -/

namespace Sys2Proof.Machine

/-! ## Memory (spec/20_memory.md) -/

/-- What a byte nothing has written reads as: 0x00, the spec's reset value of every byte (R27, R36;
log entry 6). -/
def unlisted : Byte := 0

/-- The byte at address `a` (R35). Every caller has checked that `a` is at most 0xFFF; above, where no
byte exists, nothing is ever listed (log entry 12). -/
def Memory.read : Memory → Nat → Byte
  | [], _ => unlisted
  | (b, w) :: t, a => if a = b then w else Memory.read t a

/-- The list with no entry for address `a`. -/
def Memory.erase (m : Memory) (a : Nat) : Memory :=
  match m with
  | [] => []
  | (b, w) :: t => if a = b then Memory.erase t a else (b, w) :: Memory.erase t a

/-- An entry put in its place among rising addresses. -/
def Memory.insert (m : Memory) (a : Nat) (v : Byte) : Memory :=
  match m with
  | [] => [(a, v)]
  | (b, w) :: t => if a < b then (a, v) :: (b, w) :: t else (b, w) :: Memory.insert t a v

/-- The byte `v` stored at address `a` (R35), the list kept in its canonical form: writing what an
unlisted address reads as removes the entry. -/
def Memory.write (m : Memory) (a : Nat) (v : Byte) : Memory :=
  if v = unlisted then m.erase a else (m.erase a).insert a v

/-- The canonical form from address `lo` on: addresses strictly rising and at most 0xFFF, no entry
equal to what an unlisted address reads as. -/
def Memory.wfFrom (lo : Nat) : Memory → Bool
  | [] => true
  | (a, v) :: t => decide (lo ≤ a) && decide (a < Config.memSize) && decide (v ≠ unlisted) && Memory.wfFrom (a + 1) t

/-- The canonical form of memory. -/
def Memory.wf (m : Memory) : Bool := Memory.wfFrom 0 m

/-- `n` single bytes from address `base` up (R30). -/
def Memory.readBytes (m : Memory) (base : Nat) : Nat → List Byte
  | 0 => []
  | n + 1 => m.read base :: Memory.readBytes m (base + 1) n

/-- Single bytes stored from address `base` up, in order (R30). -/
def Memory.writeBytes (m : Memory) (base : Nat) : List Byte → Memory
  | [] => m
  | b :: bs => Memory.writeBytes (m.write base b) (base + 1) bs

/-! ## General registers (spec/10_state.md R10) -/

/-- `V[x]`. -/
def State.readV (s : State) (x : Reg) : Byte := s.v[x.val]

/-- `V[x] <- b`. -/
def State.setV (s : State) (x : Reg) (b : Byte) : State := { s with v := s.v.set x.val b }

/-- A block of registers from `V[k]` up replaced by `bs`, in order (R115). -/
def loadRegs (v : Vector Byte 16) (k : Nat) : List Byte → Vector Byte 16
  | [] => v
  | b :: bs => loadRegs (v.setIfInBounds k b) (k + 1) bs

/-- `V[0]` to `V[x]`, in order (R114). -/
def State.regsUpTo (s : State) (x : Reg) : List Byte := s.v.toList.take (x.val + 1)

/-! ## Program counter (R12, R46) -/

/-- `npc`: the already advanced program counter (R46). -/
def State.npc (s : State) : Word := s.pc + 2

/-- `pc <- target`. -/
def State.setPc (s : State) (target : Word) : State := { s with pc := target }

/-- `pc <- npc`. -/
def State.advance (s : State) : State := s.setPc s.npc

/-- A skip: `pc <- npc + 2` where the condition holds, else `pc <- npc` (spec/41_skips.md R74). -/
def State.skipIf (s : State) (c : Bool) : State := s.setPc (if c then s.npc + 2 else s.npc)

/-! ## Call stack (R14) -/

/-- Push a return address, or nothing where 16 are already there (R14). -/
def State.push (s : State) (w : Word) : Option State :=
  if h : s.sp.val < 16 then
    some { s with stk := s.stk.set s.sp.val w, sp := ⟨s.sp.val + 1, by omega⟩ }
  else none

/-- Pop: the top entry and the state with the depth one less, the entry keeping its old contents; or
nothing where the stack is empty (R14). -/
def State.pop (s : State) : Option (Word × State) :=
  if h : s.sp.val = 0 then none
  else some (s.stk[s.sp.val - 1]'(by omega), { s with sp := ⟨s.sp.val - 1, by omega⟩ })

/-! ## Display (R16) -/

/-- The display with every pixel off (R60). -/
def Display.blank : Display := Vector.replicate 32 (Vector.replicate 64 false)

/-- `FB[px, py]`; off the display, where no pixel exists and no caller looks, `false` (log entry 11). -/
def Display.get (fb : Display) (px py : Nat) : Bool :=
  if h : px < 64 ∧ py < 32 then (fb[py]'h.2)[px]'h.1 else false

/-- `FB[px, py] <- b`; off the display nothing changes (log entry 11). -/
def Display.set (fb : Display) (px py : Nat) (b : Bool) : Display :=
  if h : px < 64 ∧ py < 32 then Vector.set fb py ((fb[py]'h.2).set px b h.1) h.2 else fb

/-- The pixel the Renderer reads at column `px`, row `py` (R134). -/
def State.pixel (s : State) (px py : Nat) : Bool := s.fb.get px py

/-! ## Fetch (R31, R32) -/

/-- `MemRead(pc, 2)`: the word at `pc`, big-endian, or nothing where `pc > 0xFFE`. -/
def State.fetchWord (s : State) : Option Word :=
  if s.pc.toNat ≤ 0xFFE then
    some (joinWord (s.mem.read s.pc.toNat) (s.mem.read (s.pc.toNat + 1)))
  else none

/-- The state with the word `w` where the next step fetches and nothing in the way of that fetch: the
core Running, and `pc` at an address a word can be fetched from (log entry 9). -/
def State.placeWord (s : State) (w : Word) : State :=
  let at' : Word := if s.pc.toNat ≤ 0xFFE then s.pc else 0x200
  { s with pc := at', mem := s.mem.writeBytes at'.toNat (wordBytes w), wait := false, fault := none }

/-! ## Faults (spec/60_exceptions.md) -/

/-- `raise F`: the latch is set and every other piece of state keeps the value it had when the step
began; in particular `pc` stays at the faulting instruction (R124). A next state, not a stop of the
model (log entry 1). -/
def raise (f : FaultRecord) (s : State) : Answer := .next { s with fault := some f }

/-- The fault code of the latch (R121; decision D26). -/
def faultCode : Option FaultRecord → Nat
  | none => 0
  | some (.decodeError _) => 1
  | some .stackOverflow => 2
  | some .stackUnderflow => 3
  | some (.outOfRange _) => 4

/-- The sub-cause number of an `OutOfRange` fault (R121; decision D26). -/
def rangeCode : RangeCause → Nat
  | .fetch => 0
  | .mem => 1
  | .pixel => 2
  | .key => 3

/-- `emit Refresh` (R21): one more event in the model's history (log entry 2). -/
def State.emitRefresh (s : State) : State := { s with refreshes := s.refreshes + 1 }

/-- `draw_byte()` (R92): the next free byte, and the state in which it has been drawn (log entry 3). -/
def State.drawByte (s : State) : Byte × State :=
  (Config.drawByte s.draws, { s with draws := s.draws + 1 })

end Sys2Proof.Machine
end

