-- ==== Sys2Proof/Machine/Flags.lean ====
section
/-! DEFINITION. Every result-and-flag computation of the machine (spec/10_state.md R11,
42_immediate_alu.md R81 to R87): a byte and the truth of its flag. -/

namespace Sys2Proof.Machine

/-- A flag as `V[0xF]` holds it: the whole byte becomes 0 or 1 (R11). -/
def flagByte (f : Bool) : Byte := if f then 1 else 0

/-- Sum mod 256, flag: the true sum exceeds 255 (R81). -/
def addResult (a b : Byte) : Byte × Bool :=
  (BitVec.ofNat 8 (a.toNat + b.toNat), decide (255 < a.toNat + b.toNat))

/-- Difference mod 256, flag: minuend STRICTLY greater than subtrahend (R82, R84). -/
def subResult (a b : Byte) : Byte × Bool := (a - b, decide (b.toNat < a.toNat))

/-- Logical shift right by one, flag: the bit shifted out (R83). -/
def shrResult (a : Byte) : Byte × Bool := (a >>> 1, a.getLsbD 0)

/-- Shift left by one mod 256, flag: the bit shifted out (R85). -/
def shlResult (a : Byte) : Byte × Bool := (a <<< 1, a.getLsbD 7)

/-- The result is written first and the flag last, so that it wins where `x` is 0xF (R86 d, D12). -/
def State.setResultFlag (s : State) (x : Reg) (r : Byte × Bool) : State :=
  (s.setV x r.1).setV flagReg (flagByte r.2)

end Sys2Proof.Machine
end

