-- ==== Sys2Proof/Machine/Alu.lean ====
section
/-! DEFINITION. Families 0x6, 0x7, 0x8: immediate load and add, register ALU
(spec/42_immediate_alu.md). Operands are read before anything is written (R86 d). -/

namespace Sys2Proof.Machine

/-- `6xnn` LDI (R75). -/
def execLdi (x : Reg) (nn : Byte) (s : State) : Answer := .next (s.setV x nn).advance

/-- `7xnn` ADDI (R76): wraps, writes no flag. -/
def execAddi (x : Reg) (nn : Byte) (s : State) : Answer := .next (s.setV x (s.readV x + nn)).advance

/-- `8xy0` MOV (R77). -/
def execMov (x y : Reg) (s : State) : Answer := .next (s.setV x (s.readV y)).advance

/-- `8xy1` OR (R78): no flag. -/
def execOr (x y : Reg) (s : State) : Answer := .next (s.setV x (s.readV x ||| s.readV y)).advance

/-- `8xy2` AND (R79): no flag. -/
def execAnd (x y : Reg) (s : State) : Answer := .next (s.setV x (s.readV x &&& s.readV y)).advance

/-- `8xy3` XOR (R80): no flag. -/
def execXor (x y : Reg) (s : State) : Answer := .next (s.setV x (s.readV x ^^^ s.readV y)).advance

/-- `8xy4` ADD (R81). -/
def execAdd (x y : Reg) (s : State) : Answer :=
  .next (s.setResultFlag x (addResult (s.readV x) (s.readV y))).advance

/-- `8xy5` SUB (R82): `V[x] - V[y]`. -/
def execSub (x y : Reg) (s : State) : Answer :=
  .next (s.setResultFlag x (subResult (s.readV x) (s.readV y))).advance

/-- `8xy6` SHR (R83): `V[x]` in place, `y` ignored. -/
def execShr (x : Reg) (s : State) : Answer := .next (s.setResultFlag x (shrResult (s.readV x))).advance

/-- `8xy7` SUBN (R84): `V[y] - V[x]`. -/
def execSubn (x y : Reg) (s : State) : Answer :=
  .next (s.setResultFlag x (subResult (s.readV y) (s.readV x))).advance

/-- `8xyE` SHL (R85): `V[x]` in place, `y` ignored. -/
def execShl (x : Reg) (s : State) : Answer := .next (s.setResultFlag x (shlResult (s.readV x))).advance

end Sys2Proof.Machine
end

