-- ==== Sys2Proof/Machine/Operands.lean ====
section
/-! DEFINITION. The operand forms (spec/30_encoding.md R49) and the checks an operand's value goes
through before an instruction changes anything (spec/20_memory.md R33, 44_draw.md R96, 45 R102). -/

namespace Sys2Proof.Machine

/-- `zext_16(nnn)` (R49). -/
def addrWord (nnn : Addr12) : Word := nnn.setWidth 16

/-- `zext_16(V[x])` (R91, R111, R112). -/
def byteWord (b : Byte) : Word := b.setWidth 16

/-- `zext_8` of a key number (R108). -/
def keyByte (k : Nibble) : Byte := (nibbleBits k).setWidth 8

/-- The addresses `base` to `base + len - 1` all name a byte, computed without wrap-around; no byte at
all is asked for when `len = 0` (R33). -/
def dataFits (base len : Nat) : Bool := len = 0 || decide (base + len - 1 ≤ 0xFFF)

/-- The 8 x `n` rectangle at column `vx`, row `vy` lies on the display, computed without wrap-around;
no check is made when `n = 0` (R95, R96). -/
def rectFits (vx vy n : Nat) : Bool :=
  n = 0 || (decide (vx + 7 ≤ 63) && decide (vy + n - 1 ≤ 31))

/-- The state of the key numbered `k`: bit `k` of `KEYS`, for `k` at most 15 (R102). -/
def State.keyDown (s : State) (k : Nat) : Bool := s.keys.getLsbD k

/-- `v div 100`, `(v div 10) mod 10`, `v mod 10`: hundreds, tens, units, each a binary byte (R113). -/
def bcdDigits (b : Byte) : List Byte :=
  [BitVec.ofNat 8 (b.toNat / 100), BitVec.ofNat 8 (b.toNat / 10 % 10), BitVec.ofNat 8 (b.toNat % 10)]

end Sys2Proof.Machine
end

