-- ==== Sys2Proof/Machine/Control.lean ====
section
/-! DEFINITION. Families 0x0, 0x1, 0x2 and 0xB: clear display, return, jump, call, jump with offset
(spec/40_family0_jump_call.md, 43_index_jump_random.md R91). -/

namespace Sys2Proof.Machine

/-- `00E0` CLS (R60): every pixel off; no `Refresh`. -/
def execCls (s : State) : Answer := .next { s with fb := Display.blank }.advance

/-- `00EE` RET (R61). -/
def execRet (s : State) : Answer :=
  match s.pop with
  | none => raise .stackUnderflow s
  | some (target, t) => .next (t.setPc target)

/-- `1nnn` JP (R63). -/
def execJp (nnn : Addr12) (s : State) : Answer := .next (s.setPc (addrWord nnn))

/-- `2nnn` CALL (R64): the pushed value is `npc`. -/
def execCall (nnn : Addr12) (s : State) : Answer :=
  match s.push s.npc with
  | none => raise .stackOverflow s
  | some t => .next (t.setPc (addrWord nnn))

/-- `Bnnn` JPV0 (R91): a 16-bit sum, not reduced to 12 bits. -/
def execJpv0 (nnn : Addr12) (s : State) : Answer :=
  .next (s.setPc (addrWord nnn + byteWord (s.readV 0)))

end Sys2Proof.Machine
end

