-- ==== Sys2Proof/Machine/Draw.lean ====
section
/-! DEFINITION. Family 0xD: draw a sprite (spec/44_draw.md R95 to R97). -/

namespace Sys2Proof.Machine

/-- The sprite bit of column `col` of a row: bit 7 is the leftmost pixel (R95; decision D9). -/
def spriteBit (b : Byte) (col : Nat) : Bool := b.getLsbD (7 - col)

/-- One pixel: XOR the sprite bit onto it; the hit becomes true if a lit pixel is turned off
(R95, R97). The pair is the display and the hit so far. -/
def drawPixel (b : Byte) (x0 y col : Nat) (acc : Display × Bool) : Display × Bool :=
  let old := acc.1.get (x0 + col) y
  let bit := spriteBit b col
  (acc.1.set (x0 + col) y (old ^^ bit), acc.2 || (bit && old))

/-- The first `n` columns of a row, from the left (R95). -/
def drawRow (b : Byte) (x0 y : Nat) : Nat → Display × Bool → Display × Bool
  | 0, acc => acc
  | n + 1, acc => drawPixel b x0 y n (drawRow b x0 y n acc)

/-- The rows of a sprite from row `y` down, one byte each, 8 columns wide (R95). -/
def drawSprite (x0 : Nat) : Nat → List Byte → Display × Bool → Display × Bool
  | _, [], acc => acc
  | y, b :: bs, acc => drawSprite x0 (y + 1) bs (drawRow b x0 y 8 acc)

/-- `Dxyn` DRW (R95, R96): the memory check, then the rectangle check, then the drawing; the flag is
written last, and one `Refresh` is emitted. -/
def execDrw (x y : Reg) (n : Nibble) (s : State) : Answer :=
  if !dataFits s.i.toNat n.val then raise (.outOfRange .mem) s
  else if !rectFits (s.readV x).toNat (s.readV y).toNat n.val then raise (.outOfRange .pixel) s
  else
    let r := drawSprite (s.readV x).toNat (s.readV y).toNat (s.mem.readBytes s.i.toNat n.val) (s.fb, false)
    .next (({ s with fb := r.1 }.setV flagReg (flagByte r.2)).emitRefresh).advance

end Sys2Proof.Machine
end

