-- ==== Sys2Proof/Machine/Index.lean ====
section
/-! DEFINITION. The address register and the random byte: `Annn`, `Cxnn`
(spec/43_index_jump_random.md R90, R92), `Fx1E`, `Fx29` (spec/46_misc_F.md R111, R112). -/

namespace Sys2Proof.Machine

/-- `Annn` LDA (R90): bits 15 to 12 of `I` become 0. -/
def execLda (nnn : Addr12) (s : State) : Answer := .next { s with i := addrWord nnn }.advance

/-- `Cxnn` RND (R92): the draw is a free value (log entry 3). -/
def execRnd (x : Reg) (nn : Byte) (s : State) : Answer :=
  let (r, t) := s.drawByte
  .next (t.setV x (r &&& nn)).advance

/-- `Fx1E` ADDA (R111): 16-bit sum, no flag. -/
def execAdda (x : Reg) (s : State) : Answer := .next { s with i := s.i + byteWord (s.readV x) }.advance

/-- `Fx29` FONT (R112): the whole byte times 5. -/
def execFont (x : Reg) (s : State) : Answer := .next { s with i := byteWord (s.readV x) * 5 }.advance

end Sys2Proof.Machine
end

