-- ==== Sys2Proof/Machine/MiscF.lean ====
section
/-! DEFINITION. Family 0xF but for the address arithmetic: timers, wait for key, BCD, register block
store and load (spec/46_misc_F.md), and the deferred step of the wait (R108). -/

namespace Sys2Proof.Machine

/-- `Fx07` LDDT (R106). -/
def execLddt (x : Reg) (s : State) : Answer := .next (s.setV x s.dt).advance

/-- `Fx15` STDT (R109). -/
def execStdt (x : Reg) (s : State) : Answer := .next { s with dt := s.readV x }.advance

/-- `Fx18` STST (R110). -/
def execStst (x : Reg) (s : State) : Answer := .next { s with st := s.readV x }.advance

/-- `Fx0A` WKEY (R107): sets the latch and records `x`; it reads no key and loads nothing. -/
def execWkey (x : Reg) (s : State) : Answer := .next { s with wait := true, waitx := x }.advance

/-- `WaitStep` (R108): with a key down, the deferred load of its number and the end of the wait; with
none, nothing. `pc` is not touched. -/
def waitStep (s : State) : State :=
  if s.keys = 0 then s
  else { s.setV s.waitx (keyByte (Config.keyPick s.keys)) with wait := false }

/-- `Fx33` BCD (R113). -/
def execBcd (x : Reg) (s : State) : Answer :=
  if !dataFits s.i.toNat 3 then raise (.outOfRange .mem) s
  else .next { s with mem := s.mem.writeBytes s.i.toNat (bcdDigits (s.readV x)) }.advance

/-- `Fx55` STM (R114): `I` is not changed. -/
def execStm (x : Reg) (s : State) : Answer :=
  if !dataFits s.i.toNat (x.val + 1) then raise (.outOfRange .mem) s
  else .next { s with mem := s.mem.writeBytes s.i.toNat (s.regsUpTo x) }.advance

/-- `Fx65` LDM (R115): `I` is not changed. -/
def execLdm (x : Reg) (s : State) : Answer :=
  if !dataFits s.i.toNat (x.val + 1) then raise (.outOfRange .mem) s
  else .next { s with v := loadRegs s.v 0 (s.mem.readBytes s.i.toNat (x.val + 1)) }.advance

end Sys2Proof.Machine
end

