-- ==== Sys2Proof/Machine/Skips.lean ====
section
/-! DEFINITION. The skips: families 0x3, 0x4, 0x5, 0x9 (spec/41_skips.md) and 0xE
(spec/45_key_skips.md). -/

namespace Sys2Proof.Machine

/-- `3xnn` SEI (R70). -/
def execSei (x : Reg) (nn : Byte) (s : State) : Answer := .next (s.skipIf (s.readV x == nn))

/-- `4xnn` SNEI (R71). -/
def execSnei (x : Reg) (nn : Byte) (s : State) : Answer := .next (s.skipIf (s.readV x != nn))

/-- `5xy?` SER (R72). -/
def execSer (x y : Reg) (s : State) : Answer := .next (s.skipIf (s.readV x == s.readV y))

/-- `9xy?` SNER (R73). -/
def execSner (x y : Reg) (s : State) : Answer := .next (s.skipIf (s.readV x != s.readV y))

/-- A skip on the state of the key numbered `V[x]`: `OutOfRange(Key)` when there is no such key,
else a skip where that key's state is `want` (R102). -/
def keySkip (want : Bool) (x : Reg) (s : State) : Answer :=
  if 15 < (s.readV x).toNat then raise (.outOfRange .key) s
  else .next (s.skipIf (s.keyDown (s.readV x).toNat == want))

/-- `Ex9E` SKP (R100). -/
def execSkp (x : Reg) (s : State) : Answer := keySkip true x s

/-- `ExA1` SKNP (R101). -/
def execSknp (x : Reg) (s : State) : Answer := keySkip false x s

end Sys2Proof.Machine
end

