-- ==== Sys2Proof/Machine/Cycle.lean ====
section
/-! DEFINITION. The step cycle (spec/30_encoding.md R46), its checks in the order of
spec/60_exceptions.md R123. -/

namespace Sys2Proof.Machine

/-- Fetch, decode, execute (R46, R32, R52). -/
def fetchDecodeExecute (s : State) : Answer :=
  match s.fetchWord with
  | none => raise (.outOfRange .fetch) s
  | some w =>
    match decodeWord w with
    | .error _ => raise (.decodeError w) s
    | .ok i => exec i s

/-- `Step`: nothing while Faulted (R125), the deferred load while waiting for a key (R108), else one
instruction (R46). -/
def cycle (s : State) : Answer :=
  if s.fault.isSome then .next s
  else if s.wait then .next (waitStep s)
  else fetchDecodeExecute s

end Sys2Proof.Machine
end

