-- ==== Sys2Proof/Machine/Step.lean ====
section
/-! DEFINITION. One step of the core, and the state in which the next step runs a given word. -/

namespace Sys2Proof.Machine

/-- `Step` (spec/30_encoding.md R46). -/
def step (s : State) : Host.Outcome State Fault Refusal := cycle s

/-- `s` with the instruction of number `w` and `nbits` bits stored where the next step fetches
(log entry 9). -/
def State.withFetchWord (s : State) (nbits w : Nat) : State := s.placeWord (tableWord nbits w)

end Sys2Proof.Machine
end

