-- ==== Sys2Proof/Machine/Agents.lean ====
section
/-! DEFINITION. What the external agents do between two steps (spec/00_scope.md R4, R28): the Host's
`Reset` and `Load`, KeyInput's `KeyWrite`, TimerClock's `TimerTick`. The Renderer writes nothing. -/

namespace Sys2Proof.Machine

/-- `Reset` (spec/70_reset_and_hazards.md R140): every piece of state at its reset value. The model's
own two counters go on: a draw after a `Reset` is a new draw (log entry 3), an emitted `Refresh` stays
emitted (log entry 2). -/
def hostReset (s : State) : State :=
  { State.reset with draws := s.draws, refreshes := s.refreshes }

/-- What `Load` answers to the Host (R141, R142; log entry 14). -/
inductive LoadAnswer where
  | loaded
  | loadRejected
deriving DecidableEq, Repr

/-- `Load(program)` (R141, R142): memory cleared, the image at 0x200, `pc` 0x200, and nothing else; an
image over 3584 bytes is rejected and nothing changes. -/
def hostLoad (program : List Byte) (s : State) : State × LoadAnswer :=
  if Config.maxProg < program.length then (s, .loadRejected)
  else ({ s with mem := Memory.writeBytes [] Config.progBase program, pc := 0x200 }, .loaded)

/-- `KeyWrite(m)` (spec/60_exceptions.md R133): any 16-bit value, any time between steps. -/
def keyWrite (m : Word) (s : State) : State := { s with keys := m }

/-- A timer one lower, or 0 (R131). -/
def tickDown (b : Byte) : Byte := if b = 0 then 0 else b - 1

/-- `TimerTick` (R131): both timers, each with a floor of zero. -/
def timerTick (s : State) : State := { s with dt := tickDown s.dt, st := tickDown s.st }

end Sys2Proof.Machine
end

