-- ==== Sys2Proof/Machine/Events.lean ====
section
/-! DEFINITION. The whole machine as an interleaving of atomic events (spec/20_memory.md R38,
92_eei_decisions.md D28): the core's `Step` and the external agents' moves between steps, in any
order (log entry 5). -/

namespace Sys2Proof.Machine

/-- The atomic events (R38). -/
inductive Event where
  | step
  | keyWrite (m : Word)
  | timerTick
  | load (program : List Byte)
  | reset
deriving DecidableEq, Repr

/-- The effect of one event. -/
def applyEvent (e : Event) (s : State) : Answer :=
  match e with
  | .step => Sys2Proof.Machine.step s
  | .keyWrite m => .next (Sys2Proof.Machine.keyWrite m s)
  | .timerTick => .next (Sys2Proof.Machine.timerTick s)
  | .load p => .next (hostLoad p s).1
  | .reset => .next (hostReset s)

/-- The effect of a schedule of events, stopping at the first answer that is no next state. -/
def runEvents : List Event → State → Answer
  | [], s => .next s
  | e :: es, s =>
    match applyEvent e s with
    | .next t => runEvents es t
    | .fault r => .fault r
    | .refused r => .refused r

end Sys2Proof.Machine
end

