-- ==== Sys2Proof/Safety.lean ====
section
/-! DEFINITION. The terms claims are stated in: what a run can be (running, waiting, faulted, parked),
what an instruction leaves unchanged (spec/10_state.md R24), the illegal words (spec/30_encoding.md
R52), the machine's invariant (R25) and the states that can be reached. -/

namespace Sys2Proof.Machine

/-! ## The conditions of a run -/

/-- Running: the next `Step` fetches an instruction (R46). -/
def State.Running (s : State) : Prop := s.fault = none ∧ s.wait = false

/-- AwaitingKey and not Faulted: the next `Step` is a `WaitStep` (R108, R137). -/
def State.Awaiting (s : State) : Prop := s.fault = none ∧ s.wait = true

/-- Faulted (R125): an ended run that went wrong. -/
def State.Faulted (s : State) : Prop := s.fault ≠ none

/-- Parked at its own `pc` (spec/70_reset_and_hazards.md R150): Running, and the word at `pc` is a
jump to `pc`. The end of a run. -/
def State.Parked (s : State) : Prop :=
  s.Running ∧ s.pc.toNat ≤ 0xFFE ∧ s.fetchWord = some (0x1000 + s.pc)

/-- Running, and the word the next step fetches is this instruction (R46). -/
def State.Fetches (s : State) (i : Instr) : Prop :=
  s.Running ∧ ∃ w, s.fetchWord = some w ∧ decodeWord w = .ok i

/-- A sequence of instruction bodies, one after the other, wherever `pc` stands in between. -/
def execAll : List Instr → State → Answer
  | [], s => .next s
  | i :: is, s =>
    match exec i s with
    | .next t => execAll is t
    | .fault r => .fault r
    | .refused r => .refused r

/-- Every piece of the spec's state has the value R27's table gives it after `Reset`. -/
structure State.AtReset (s : State) : Prop where
  v : ∀ r, s.readV r = 0
  pc : s.pc = 0x200
  i : s.i = 0
  sp : s.sp = 0
  stk : ∀ k, k < 16 → s.stk[k]? = some 0
  mem : ∀ a, s.mem.read a = 0
  fb : ∀ px py, s.pixel px py = false
  dt : s.dt = 0
  st : s.st = 0
  keys : s.keys = 0
  wait : s.wait = false
  waitx : s.waitx = 0
  fault : s.fault = none

/-! ## Sprites -/

/-- The bit the sprite of `Dxyn` has at column `px`, row `py` of the display: inside the 8 x `n`
rectangle at (`V[x]`, `V[y]`) the bit of the row's byte, the most significant leftmost, and outside it
no bit at all (R95). -/
def spriteAt (s : State) (x y : Reg) (n : Nibble) (px py : Nat) : Bool :=
  decide ((s.readV x).toNat ≤ px ∧ px < (s.readV x).toNat + 8) &&
  decide ((s.readV y).toNat ≤ py ∧ py < (s.readV y).toNat + n.val) &&
  (s.mem.read (s.i.toNat + (py - (s.readV y).toNat))).getLsbD (7 - (px - (s.readV x).toNat))

/-- Nothing stops the draw: `n = 0`, or its bytes lie in memory and its rectangle on the display
(R96). -/
def DrawFits (s : State) (x y : Reg) (n : Nibble) : Prop :=
  n.val = 0 ∨
  (s.i.toNat + n.val - 1 ≤ 0xFFF ∧ (s.readV x).toNat ≤ 56 ∧ (s.readV y).toNat + n.val ≤ 32)

/-! ## Frames -/

/-- The pieces of state, one name each. -/
inductive Field where
  | v | pc | i | sp | stk | mem | fb | dt | st | keys | wait | waitx | fault | draws | refreshes
deriving DecidableEq, Repr

/-- That piece of state is the same in `t` as in `s`; memory byte by byte, the display pixel by
pixel, the registers one by one. -/
def Field.Same (s t : State) : Field → Prop
  | .v => ∀ r, t.readV r = s.readV r
  | .pc => t.pc = s.pc
  | .i => t.i = s.i
  | .sp => t.sp = s.sp
  | .stk => t.stk = s.stk
  | .mem => ∀ a, t.mem.read a = s.mem.read a
  | .fb => ∀ px py, t.pixel px py = s.pixel px py
  | .dt => t.dt = s.dt
  | .st => t.st = s.st
  | .keys => t.keys = s.keys
  | .wait => t.wait = s.wait
  | .waitx => t.waitx = s.waitx
  | .fault => t.fault = s.fault
  | .draws => t.draws = s.draws
  | .refreshes => t.refreshes = s.refreshes

/-- Every piece of state but those listed is unchanged. -/
def OnlyChanges (fs : List Field) (s t : State) : Prop := ∀ f, f ∉ fs → f.Same s t

/-- Every general register but those listed is unchanged. -/
def OtherRegs (rs : List Reg) (s t : State) : Prop := ∀ r, r ∉ rs → t.readV r = s.readV r

/-- Every byte of memory but the `n` from address `base` up is unchanged. -/
def OtherBytes (base n : Nat) (s t : State) : Prop :=
  ∀ a, ¬(base ≤ a ∧ a < base + n) → t.mem.read a = s.mem.read a

end Sys2Proof.Machine

namespace Sys2Proof

open Machine in
/-- The write set of every instruction, as R24's table gives it, with the `pc` every completed
instruction writes, the latch every faulting one sets (R122), and the model's own counters. -/
def Instr.writes : Instr → List Field
  | .cls => [.fb, .pc]
  | .ret => [.sp, .pc, .fault]
  | .jp _ => [.pc]
  | .call _ => [.stk, .sp, .pc, .fault]
  | .sei _ _ | .snei _ _ | .ser _ _ _ | .sner _ _ _ => [.pc]
  | .ldi _ _ | .addi _ _ | .mov _ _ | .or _ _ | .and _ _ | .xor _ _ => [.v, .pc]
  | .add _ _ | .sub _ _ | .shr _ _ | .subn _ _ | .shl _ _ => [.v, .pc]
  | .lda _ => [.i, .pc]
  | .jpv0 _ => [.pc]
  | .rnd _ _ => [.v, .pc, .draws]
  | .drw _ _ _ => [.fb, .v, .pc, .refreshes, .fault]
  | .skp _ | .sknp _ => [.pc, .fault]
  | .lddt _ => [.v, .pc]
  | .wkey _ => [.wait, .waitx, .pc]
  | .stdt _ => [.dt, .pc]
  | .stst _ => [.st, .pc]
  | .adda _ | .font _ => [.i, .pc]
  | .bcd _ | .stm _ => [.mem, .pc, .fault]
  | .ldm _ => [.v, .pc, .fault]

/-- The general registers an instruction may write: R24's table, with `V[0xF]` for the six that write
the flag (R11) and `V[0..x]` for the block load (R115). -/
def Instr.WritesReg (r : Reg) : Instr → Prop
  | .ldi x _ | .addi x _ | .mov x _ | .or x _ | .and x _ | .xor x _ | .rnd x _ | .lddt x => r = x
  | .add x _ | .sub x _ | .shr x _ | .subn x _ | .shl x _ => r = x ∨ r = flagReg
  | .drw _ _ _ => r = flagReg
  | .ldm x => r ≤ x
  | .cls | .ret | .jp _ | .call _ | .sei _ _ | .snei _ _ | .ser _ _ _ | .sner _ _ _ | .lda _ | .jpv0 _
  | .skp _ | .sknp _ | .wkey _ | .stdt _ | .stst _ | .adda _ | .font _ | .bcd _ | .stm _ => False

/-- How many bytes an instruction may store, from address `I` up: R24's `MEM[I .. I+2]` and
`MEM[I .. I+x]`, and none for the rest. -/
def Instr.storedBytes : Instr → Nat
  | .bcd _ => 3
  | .stm x => x.val + 1
  | .cls | .ret | .jp _ | .call _ | .sei _ _ | .snei _ _ | .ser _ _ _ | .ldi _ _ | .addi _ _ | .mov _ _
  | .or _ _ | .and _ _ | .xor _ _ | .add _ _ | .sub _ _ | .shr _ _ | .subn _ _ | .shl _ _ | .sner _ _ _
  | .lda _ | .jpv0 _ | .rnd _ _ | .drw _ _ _ | .skp _ | .sknp _ | .lddt _ | .wkey _ | .stdt _ | .stst _
  | .adda _ | .font _ | .ldm _ => 0

open Machine in
/-- The stack entry an instruction may write: R24's `STK[sp]` for the call, and none for the rest. -/
def Instr.WritesEntry (s : State) (k : Nat) : Instr → Prop
  | .call _ => k = s.sp.val
  | .cls | .ret | .jp _ | .sei _ _ | .snei _ _ | .ser _ _ _ | .ldi _ _ | .addi _ _ | .mov _ _ | .or _ _
  | .and _ _ | .xor _ _ | .add _ _ | .sub _ _ | .shr _ _ | .subn _ _ | .shl _ _ | .sner _ _ _ | .lda _
  | .jpv0 _ | .rnd _ _ | .drw _ _ _ | .skp _ | .sknp _ | .lddt _ | .wkey _ | .stdt _ | .stst _ | .adda _
  | .font _ | .bcd _ | .stm _ | .ldm _ => False

/-- The six instructions that write `V[0xF]` as a flag (R11). -/
def Instr.SetsFlag : Instr → Prop
  | .add _ _ | .sub _ _ | .shr _ _ | .subn _ _ | .shl _ _ | .drw _ _ _ => True
  | .cls | .ret | .jp _ | .call _ | .sei _ _ | .snei _ _ | .ser _ _ _ | .ldi _ _ | .addi _ _ | .mov _ _
  | .or _ _ | .and _ _ | .xor _ _ | .sner _ _ _ | .lda _ | .jpv0 _ | .rnd _ _ | .skp _ | .sknp _ | .lddt _
  | .wkey _ | .stdt _ | .stst _ | .adda _ | .font _ | .bcd _ | .stm _ | .ldm _ => False

end Sys2Proof

namespace Sys2Proof.Machine

/-! ## What a program cannot see -/

/-- The two states agree on everything but `ST`. -/
def SameButSt (s s' : State) : Prop := s' = { s with st := s'.st }

/-- The two states agree on everything but stack entries at or above the depth. -/
def SameButStale (s s' : State) : Prop :=
  s' = { s with stk := s'.stk } ∧ ∀ k, k < s.sp.val → s'.stk[k]? = s.stk[k]?

/-! ## Encodings -/

/-- The illegal words, family by family (R52's table). -/
def IllegalWord (w : Word) : Prop :=
  (w.toNat / 4096 = 0x0 ∧ w ≠ 0x00E0 ∧ w ≠ 0x00EE) ∨
  (w.toNat / 4096 = 0x8 ∧ w.toNat % 16 ∈ [0x8, 0x9, 0xA, 0xB, 0xC, 0xD, 0xF]) ∨
  (w.toNat / 4096 = 0xE ∧ w.toNat % 256 ∉ [0x9E, 0xA1]) ∨
  (w.toNat / 4096 = 0xF ∧
    w.toNat % 256 ∉ [0x07, 0x0A, 0x15, 0x18, 0x1E, 0x29, 0x33, 0x55, 0x65])

/-- "The word `w` is this instruction exactly when `w & mask = match`" (R50), its operands taken from
the fields of R47. -/
def EncodedAs (mask pattern : Word) (instr : Word → Instr) : Prop :=
  ∀ w : Word, w &&& mask = pattern ↔ decodeWord w = .ok (instr w)

/-! ## The invariant -/

/-- What holds in every state that can be reached (R25): memory is in its canonical form, `pc` is at
most 0x10FE, and every valid return address is at most 0x1000. (`0 <= sp <= 16` is in `sp`'s type.) -/
structure State.Inv (s : State) : Prop where
  memWf : s.mem.wf = true
  pcLe : s.pc.toNat ≤ 0x10FE
  stkLe : ∀ k (h : k < 16), k < s.sp.val → (s.stk[k]).toNat ≤ 0x1000

/-- The states that `Reset`, `Load`, `Step` and the external agents can reach (R25). -/
inductive Reachable : State → Prop where
  | launch : Reachable State.reset
  | next {s t : State} (e : Event) : Reachable s → applyEvent e s = .next t → Reachable t

end Sys2Proof.Machine
end

