-- ==== Sys2Proof/Certificates/Slice0/Obligations.lean ====
section
/-! DEFINITION. The statements for the provers, each from numbered rules of spec/. "Completes" means
that `exec` answers a next state with the instruction's own effect. -/

open Sys2Proof Sys2Proof.Machine

/-! ## Encoding (spec/30_encoding.md) -/

/-- Decoding the word of any instruction gives that instruction back, every operand at every value its
field admits, the ignored fields included (R47, R48, R50, R51). -/
def Obligations.DecodeOfEncode : Prop := ∀ i : Instr, decodeWord (encode i) = .ok i

/-- A word that decodes is the word of what it decodes to: no two words decode to one instruction and
no bit is dropped (R47, R50). That words differing only in an ignored field are DIFFERENT instructions
of `Instr` is the model's choice (log entry 10): the spec calls them the same instruction (R51), and
`exec` treats them alike. -/
def Obligations.EncodeOfDecode : Prop := ∀ (w : Word) (i : Instr), decodeWord w = .ok i → encode i = w

/-- The words the decoder rejects are exactly R52's illegal words, and a Running core that fetches one
raises `DecodeError` with that word and changes nothing else (R52, R62). -/
def Obligations.IllegalWordsRaiseDecodeError : Prop :=
  (∀ w : Word, (∃ e, decodeWord w = .error e) ↔ IllegalWord w) ∧
  ∀ (s : State) (w : Word), s.Running → s.fetchWord = some w → IllegalWord w →
    step s = .next { s with fault := some (.decodeError w) }

/-- Each row of R50's map against the decoder: a word passes the row's mask and match exactly when it
decodes to an instruction of that row; so the patterns do not overlap. -/
def Obligations.OpcodeRowsAgreeWithDecoder : Prop :=
  ∀ (w : Word) (r : OpcodeRow), r ∈ opcodeTable →
    (w &&& r.mask = r.pattern ↔ ∃ i, decodeWord w = .ok i ∧ i.row = r)

/-- Words the spec writes out decode to the instructions it says they are (the examples of R60, R63,
R64, R72, R75, R81, R85, R90 to R92, R95, R100, R113). -/
def Obligations.SpelledWordsDecode : Prop :=
  decodeWord 0x00E0 = .ok .cls ∧ decodeWord 0x1204 = .ok (.jp 0x204) ∧
  decodeWord 0x2210 = .ok (.call 0x210) ∧ decodeWord 0x512F = .ok (.ser 1 2 15) ∧
  decodeWord 0x6A02 = .ok (.ldi 0xA 0x02) ∧ decodeWord 0x8124 = .ok (.add 1 2) ∧
  decodeWord 0x830E = .ok (.shl 3 0) ∧ decodeWord 0xA300 = .ok (.lda 0x300) ∧
  decodeWord 0xB300 = .ok (.jpv0 0x300) ∧ decodeWord 0xC30F = .ok (.rnd 3 0x0F) ∧
  decodeWord 0xD012 = .ok (.drw 0 1 2) ∧ decodeWord 0xE39E = .ok (.skp 3) ∧
  decodeWord 0xF033 = .ok (.bcd 0)

/-! ## The step cycle -/

/-- A Running core fetches big-endian: above `pc` = 0xFFE it raises `OutOfRange(Fetch)` and nothing
else happens, otherwise the word `MEM[pc] * 256 + MEM[pc + 1]` is decoded and what it decodes to is
executed (R31, R32, R46; the spec's decision D7). -/
def Obligations.StepFetchesBigEndian : Prop :=
  ∀ s : State, s.Running →
    (0xFFE < s.pc.toNat → step s = .next { s with fault := some (.outOfRange .fetch) }) ∧
    (s.pc.toNat ≤ 0xFFE → ∀ w : Word,
      w.toNat = (s.mem.read s.pc.toNat).toNat * 256 + (s.mem.read (s.pc.toNat + 1)).toNat →
      (∀ i, decodeWord w = .ok i → step s = exec i s) ∧
      (∀ e, decodeWord w = .error e → step s = .next { s with fault := some (.decodeError w) }))

/-- When the two bytes at `pc` decode to an instruction, a Running core's step is exactly `exec` of it
at that state; nothing is added around it (R46). -/
def Obligations.StepRunsDecodedInstruction : Prop :=
  ∀ (s : State) (i : Instr), s.Running → s.pc.toNat ≤ 0xFFE →
    decodeBytes [s.mem.read s.pc.toNat, s.mem.read (s.pc.toNat + 1)] = .ok (i, []) → step s = exec i s

/-- The model's own placing of a word (log entry 9): the very next step runs it, from any state. -/
def Obligations.PlacedWordRunsNext : Prop :=
  ∀ (s : State) (w : Nat) (i : Instr), decodeTableWord 16 w = some i →
    step (s.withFetchWord 16 w) = exec i (s.withFetchWord 16 w)

/-- A Faulted core: `Step` does nothing, `Load` and the external agents do not clear the latch though
the agents still act, and `Reset` clears it with everything else (R125). -/
def Obligations.FaultedCoreDoesNothing : Prop :=
  ∀ s : State, s.Faulted →
    step s = .next s ∧ (hostReset s).AtReset ∧ (∀ p, (hostLoad p s).1.fault = s.fault) ∧
    (∀ m, (keyWrite m s).keys = m ∧ (keyWrite m s).fault = s.fault) ∧
    (timerTick s).dt.toNat = s.dt.toNat - 1 ∧ (timerTick s).st.toNat = s.st.toNat - 1 ∧
    (timerTick s).fault = s.fault

/-- `WaitStep`: with no key down the step changes nothing at all; with one down it loads the number of
a key that is down, the one `KEY_PICK` picks, into `V[WAITX]` and ends the wait, `pc` untouched; `Load`
does not end the wait, `Reset` does (R108). That a key's NUMBER is loaded is the spec's own decision
D22, from general knowledge (G4; log entry 8); which key is the model's free value (log entry 4). -/
def Obligations.WaitStepLoadsAPressedKey : Prop :=
  ∀ s : State, s.Awaiting →
    (s.keys = 0 → step s = .next s) ∧
    (s.keys ≠ 0 → ∃ t, step s = .next t ∧
      s.keys.getLsbD (Config.keyPick s.keys).val = true ∧
      (t.readV s.waitx).toNat = (Config.keyPick s.keys).val ∧ t.wait = false ∧
      OtherRegs [s.waitx] s t ∧ OnlyChanges [.v, .wait] s t) ∧
    (∀ p, (hostLoad p s).1.wait = true) ∧ (hostReset s).wait = false

/-- Every state has a defined step, and every schedule of events can be run to its end from every
state: nothing is stuck, refused or a fault of the host's interface
(spec/93_implementation_defined.md). -/
def Obligations.EveryScheduleAnswersNext : Prop :=
  (∀ s : State, ∃ t, step s = .next t) ∧ ∀ (es : List Event) (s : State), ∃ t, runEvents es s = .next t

/-! ## Faults (spec/60_exceptions.md) -/

/-- Faults are precise and atomic: a step of any instruction that sets the latch changes nothing but
the latch (R124). -/
def Obligations.FaultsArePrecise : Prop :=
  ∀ s t : State, s.fault = none → step s = .next t → t.fault ≠ none → t = { s with fault := t.fault }

/-- Every fault and exactly when it is raised; of two that apply to a draw, memory is reported (R122,
R123). -/
def Obligations.FaultCausesExactly : Prop :=
  ∀ s t : State, s.fault = none → step s = .next t →
    (t.fault = some (.outOfRange .fetch) ↔ s.Running ∧ 0xFFE < s.pc.toNat) ∧
    (∀ w, t.fault = some (.decodeError w) ↔ s.Running ∧ s.fetchWord = some w ∧ IllegalWord w) ∧
    (t.fault = some .stackOverflow ↔ ∃ nnn, s.Fetches (.call nnn) ∧ s.sp.val = 16) ∧
    (t.fault = some .stackUnderflow ↔ s.Fetches .ret ∧ s.sp.val = 0) ∧
    (t.fault = some (.outOfRange .mem) ↔
      (∃ x y n, s.Fetches (.drw x y n) ∧ 1 ≤ n.val ∧ 0xFFF < s.i.toNat + n.val - 1) ∨
      (∃ x, s.Fetches (.bcd x) ∧ 0xFFF < s.i.toNat + 2) ∨
      (∃ x, (s.Fetches (.stm x) ∨ s.Fetches (.ldm x)) ∧ 0xFFF < s.i.toNat + x.val)) ∧
    (t.fault = some (.outOfRange .pixel) ↔
      ∃ x y n, s.Fetches (.drw x y n) ∧ 1 ≤ n.val ∧ s.i.toNat + n.val - 1 ≤ 0xFFF ∧
        (56 < (s.readV x).toNat ∨ 32 < (s.readV y).toNat + n.val)) ∧
    (t.fault = some (.outOfRange .key) ↔
      ∃ x, (s.Fetches (.skp x) ∨ s.Fetches (.sknp x)) ∧ 15 < (s.readV x).toNat)

/-- The codes of the fault kinds and of the sub-causes (R121). -/
def Obligations.FaultCodesAsListed : Prop :=
  faultCode none = 0 ∧ (∀ w, faultCode (some (.decodeError w)) = 1) ∧
  faultCode (some .stackOverflow) = 2 ∧ faultCode (some .stackUnderflow) = 3 ∧
  (∀ c, faultCode (some (.outOfRange c)) = 4) ∧
  rangeCode .fetch = 0 ∧ rangeCode .mem = 1 ∧ rangeCode .pixel = 2 ∧ rangeCode .key = 3

/-! ## Invariants (spec/10_state.md R25) -/

/-- Every step keeps the invariant: canonical memory, `pc` at most 0x10FE, valid return addresses at
most 0x1000. -/
def Obligations.StepKeepsInv : Prop := ∀ s t : State, s.Inv → step s = .next t → t.Inv

/-- The state after reset meets the invariant. -/
def Obligations.ResetMeetsInv : Prop := State.reset.Inv

/-- Every state that `Reset`, `Load`, `Step` and the external agents can reach meets the invariant
(R25). -/
def Obligations.ReachableStatesMeetInv : Prop := ∀ s : State, Reachable s → s.Inv

/-! ## Whole-machine rules -/

/-- The core never writes `KEYS`, and writes a timer only by the instruction that writes it: it never
decrements one itself (R17, R18, R28). -/
def Obligations.CoreLeavesKeysAndTimers : Prop :=
  ∀ s t : State, step s = .next t →
    t.keys = s.keys ∧ (t.dt ≠ s.dt → ∃ x, s.Fetches (.stdt x)) ∧ (t.st ≠ s.st → ∃ x, s.Fetches (.stst x))

/-- The write set of every instruction: no piece of state outside its row of R24's table changes, no
register outside those it writes, no byte of memory but `MEM[I .. I+2]` for `Fx33` and `MEM[I .. I+x]`
for `Fx55`, and no stack entry but `STK[sp]` for `2nnn`. -/
def Obligations.InstructionsKeepToTheirWriteSets : Prop :=
  ∀ (i : Instr) (s t : State), exec i s = .next t →
    OnlyChanges i.writes s t ∧ (∀ r, ¬ i.WritesReg r → t.readV r = s.readV r) ∧
    OtherBytes s.i.toNat i.storedBytes s t ∧ ∀ k, ¬ i.WritesEntry s k → t.stk[k]? = s.stk[k]?

/-- Each of the six flag-writing instructions, when it completes, leaves 0 or 1 in `V[0xF]` (R11). -/
def Obligations.FlagIsZeroOrOne : Prop :=
  ∀ (i : Instr) (s t : State), i.SetsFlag → s.fault = none → exec i s = .next t → t.fault = none →
    t.readV flagReg = 0 ∨ t.readV flagReg = 1

/-- The wait is entered only by `Fx0A`, which records its register, and left by a step only when a key
is down (R19, R137). -/
def Obligations.WaitEnteredByWkeyOnly : Prop :=
  ∀ s t : State, step s = .next t →
    (s.wait = false → t.wait = true → s.Fetches (.wkey t.waitx)) ∧
    (s.wait = true → t.wait = false → s.keys ≠ 0)

/-- No event raises `DT` but a step that runs `Fx15`: between two writes its values never increase
(R132). -/
def Obligations.DelayTimerFallsBetweenWrites : Prop :=
  ∀ (e : Event) (s t : State), (e = .step → ∀ x, ¬ s.Fetches (.stdt x)) → applyEvent e s = .next t →
    t.dt.toNat ≤ s.dt.toNat

/-- `ST` has no effect on any later step: states that agree on everything else still do so after any
schedule (R132). By the model's choice the two runs compared are given the SAME random draws, since the
states agree on `draws` too (log entry 3). -/
def Obligations.SoundTimerHasNoEffect : Prop :=
  ∀ (es : List Event) (s s' t : State), SameButSt s s' → runEvents es s = .next t →
    ∃ t', runEvents es s' = .next t' ∧ SameButSt t t'

/-- A stale stack entry above the depth is unobservable: states that differ in nothing else still
differ in nothing else after any schedule (R14). By the model's choice the two runs compared are given
the SAME random draws, since the states agree on `draws` too (log entry 3). -/
def Obligations.StaleStackEntriesUnobservable : Prop :=
  ∀ (es : List Event) (s s' t : State), SameButStale s s' → runEvents es s = .next t →
    ∃ t', runEvents es s' = .next t' ∧ SameButStale t t'

/-- Parked: whatever the external agents do to `KEYS` and the timers, and however many steps are
taken, the core stays parked at the same `pc` and nothing else changes; a step changes nothing at all
(R150). -/
def Obligations.ParkedStaysParked : Prop :=
  (∀ s : State, s.Parked → step s = .next s) ∧
  ∀ (es : List Event) (s : State), s.Parked →
    (∀ e ∈ es, e ≠ .reset ∧ ∀ p, e ≠ .load p) →
    ∃ t, runEvents es s = .next t ∧ t.Parked ∧ OnlyChanges [.keys, .dt, .st] s t

/-! ## Reset, load and the external agents -/

/-- After reset every piece of state has the value of R27's table, whatever it was before. -/
def Obligations.ResetLeavesListedValues : Prop := State.reset.AtReset ∧ ∀ s : State, (hostReset s).AtReset

/-- A core that is reset and not loaded raises `DecodeError(0x0000)` at 0x200 in its first step and
changes nothing else (R140, R62). -/
def Obligations.ResetUnloadedFaults : Prop :=
  ∀ s : State, step (hostReset s) = .next { hostReset s with fault := some (.decodeError 0x0000) }

/-- `Load`: an image of at most 3584 bytes clears memory, lies at 0x200 byte for byte, sets `pc` and
changes nothing else; a longer one is rejected and changes nothing (R141, R142). -/
def Obligations.LoadPlacesImage : Prop :=
  ∀ (p : List Byte) (s : State),
    (p.length ≤ 3584 →
      (hostLoad p s).2 = .loaded ∧ (hostLoad p s).1.pc = 0x200 ∧
      (∀ a, (hostLoad p s).1.mem.read a =
        if 0x200 ≤ a ∧ a < 0x200 + p.length then p.getD (a - 0x200) 0 else 0) ∧
      OnlyChanges [.mem, .pc] s (hostLoad p s).1) ∧
    (3584 < p.length → hostLoad p s = (s, .loadRejected))

/-- A `TimerTick` lowers each timer by one with a floor of zero, both in one tick, and changes nothing
else (R131). -/
def Obligations.TimerTickLowersBoth : Prop :=
  ∀ s : State, ∃ t, applyEvent .timerTick s = .next t ∧ t.dt.toNat = s.dt.toNat - 1 ∧
    t.st.toNat = s.st.toNat - 1 ∧ OnlyChanges [.dt, .st] s t

/-- A `KeyWrite` sets `KEYS` to the value written and changes nothing else (R133). -/
def Obligations.KeyWriteSetsKeys : Prop :=
  ∀ (m : Word) (s : State), ∃ t, applyEvent (.keyWrite m) s = .next t ∧ t.keys = m ∧ OnlyChanges [.keys] s t

/-! ## Families 0x0, 0x1, 0x2, 0xB -/

/-- `00E0` completes in every state: every pixel off, `pc` + 2, no `Refresh`, nothing else (R60). -/
def Obligations.ClsClearsDisplay : Prop :=
  EncodedAs 0xFFFF 0x00E0 (fun _ => .cls) ∧
  ∀ s : State, ∃ t, exec .cls s = .next t ∧ (∀ px py, t.pixel px py = false) ∧ t.pc = s.pc + 2 ∧
    OnlyChanges [.fb, .pc] s t

/-- `00EE` completes on every stack that is not empty: the depth one less, `pc` the top entry, the
entries kept; on an empty one it raises `StackUnderflow` (R61; the spec's decision D5). -/
def Obligations.RetPopsReturnAddress : Prop :=
  EncodedAs 0xFFFF 0x00EE (fun _ => .ret) ∧
  ∀ s : State,
    (s.sp.val ≠ 0 → ∃ t, exec .ret s = .next t ∧ t.sp.val = s.sp.val - 1 ∧
      s.stk[s.sp.val - 1]? = some t.pc ∧ OnlyChanges [.sp, .pc] s t) ∧
    (s.sp.val = 0 → exec .ret s = .next { s with fault := some .stackUnderflow })

/-- `1nnn` completes in every state: `pc` is `nnn` zero-extended, nothing else changes (R63). -/
def Obligations.JpJumps : Prop :=
  EncodedAs 0xF000 0x1000 (fun w => .jp (fieldNNN w)) ∧
  ∀ (nnn : Addr12) (s : State), ∃ t, exec (.jp nnn) s = .next t ∧ t.pc.toNat = nnn.toNat ∧
    OnlyChanges [.pc] s t

/-- `2nnn` completes on every stack that is not full: `pc + 2` pushed, the other entries kept, `pc` is
`nnn`; on a full one, of 16, it raises `StackOverflow` (R64; the spec's decisions D3, D4). -/
def Obligations.CallPushesReturnAddress : Prop :=
  EncodedAs 0xF000 0x2000 (fun w => .call (fieldNNN w)) ∧
  ∀ (nnn : Addr12) (s : State),
    (s.sp.val ≠ 16 → ∃ t, exec (.call nnn) s = .next t ∧ t.stk[s.sp.val]? = some (s.pc + 2) ∧
      (∀ k, k ≠ s.sp.val → t.stk[k]? = s.stk[k]?) ∧ t.sp.val = s.sp.val + 1 ∧
      t.pc.toNat = nnn.toNat ∧ OnlyChanges [.stk, .sp, .pc] s t) ∧
    (s.sp.val = 16 → exec (.call nnn) s = .next { s with fault := some .stackOverflow })

/-- Calls nested to any depth the stack has room for, then as many returns: `pc` is at the instruction
following the first call, the depth and every entry below it are as before, and nothing else has
changed (R61, R64, R65). -/
def Obligations.NestedCallsReturn : Prop :=
  ∀ (ns : List Addr12) (s : State), ns ≠ [] → s.sp.val + ns.length ≤ 16 →
    ∃ t, execAll (ns.map Instr.call ++ List.replicate ns.length Instr.ret) s = .next t ∧
      t.pc = s.pc + 2 ∧ (∀ k, k < s.sp.val → t.stk[k]? = s.stk[k]?) ∧ OnlyChanges [.pc, .stk] s t

/-- `Bnnn` completes in every state: `pc` is `nnn + V[0]`, not reduced to 12 bits (R91). -/
def Obligations.Jpv0JumpsWithOffset : Prop :=
  EncodedAs 0xF000 0xB000 (fun w => .jpv0 (fieldNNN w)) ∧
  ∀ (nnn : Addr12) (s : State), ∃ t, exec (.jpv0 nnn) s = .next t ∧
    t.pc.toNat = nnn.toNat + (s.readV 0).toNat ∧ OnlyChanges [.pc] s t

/-! ## Skips (spec/41_skips.md, 45_key_skips.md) -/

/-- `3xnn` and `4xnn` complete in every state: `pc` + 4 where `V[x]` equals, for the other differs
from, `nn`, else `pc` + 2; nothing else changes (R70, R71). -/
def Obligations.ImmediateSkips : Prop :=
  EncodedAs 0xF000 0x3000 (fun w => .sei (fieldX w) (fieldNN w)) ∧
  EncodedAs 0xF000 0x4000 (fun w => .snei (fieldX w) (fieldNN w)) ∧
  ∀ (x : Reg) (nn : Byte) (s : State),
    (∃ t, exec (.sei x nn) s = .next t ∧ t.pc = (if s.readV x = nn then s.pc + 4 else s.pc + 2) ∧
      OnlyChanges [.pc] s t) ∧
    (∃ t, exec (.snei x nn) s = .next t ∧ t.pc = (if s.readV x = nn then s.pc + 2 else s.pc + 4) ∧
      OnlyChanges [.pc] s t)

/-- `5xy?` and `9xy?` complete in every state, whatever their low nibble: `pc` + 4 where the registers
are equal, for the other different, else `pc` + 2; nothing else changes (R72, R73). -/
def Obligations.RegisterSkips : Prop :=
  EncodedAs 0xF000 0x5000 (fun w => .ser (fieldX w) (fieldY w) (fieldN w)) ∧
  EncodedAs 0xF000 0x9000 (fun w => .sner (fieldX w) (fieldY w) (fieldN w)) ∧
  ∀ (x y : Reg) (ign : Nibble) (s : State),
    (∃ t, exec (.ser x y ign) s = .next t ∧
      t.pc = (if s.readV x = s.readV y then s.pc + 4 else s.pc + 2) ∧ OnlyChanges [.pc] s t) ∧
    (∃ t, exec (.sner x y ign) s = .next t ∧
      t.pc = (if s.readV x = s.readV y then s.pc + 2 else s.pc + 4) ∧ OnlyChanges [.pc] s t)

/-- `Ex9E` and `ExA1` complete where `V[x]` is at most 15: `pc` + 4 where that key is down, for the
other up, else `pc` + 2; above 15 both raise `OutOfRange(Key)` (R100, R101; the spec's decision D23). -/
def Obligations.KeySkips : Prop :=
  EncodedAs 0xF0FF 0xE09E (fun w => .skp (fieldX w)) ∧
  EncodedAs 0xF0FF 0xE0A1 (fun w => .sknp (fieldX w)) ∧
  ∀ (x : Reg) (s : State),
    ((s.readV x).toNat ≤ 15 →
      (∃ t, exec (.skp x) s = .next t ∧
        t.pc = (if s.keys.getLsbD (s.readV x).toNat then s.pc + 4 else s.pc + 2) ∧
        OnlyChanges [.pc] s t) ∧
      (∃ t, exec (.sknp x) s = .next t ∧
        t.pc = (if s.keys.getLsbD (s.readV x).toNat then s.pc + 2 else s.pc + 4) ∧
        OnlyChanges [.pc] s t)) ∧
    (15 < (s.readV x).toNat →
      exec (.skp x) s = .next { s with fault := some (.outOfRange .key) } ∧
      exec (.sknp x) s = .next { s with fault := some (.outOfRange .key) })

/-! ## Immediate and register ALU (spec/42_immediate_alu.md) -/

/-- `6xnn` completes in every state: `V[x]` is `nn` (R75). -/
def Obligations.LdiLoadsImmediate : Prop :=
  EncodedAs 0xF000 0x6000 (fun w => .ldi (fieldX w) (fieldNN w)) ∧
  ∀ (x : Reg) (nn : Byte) (s : State), ∃ t, exec (.ldi x nn) s = .next t ∧ t.readV x = nn ∧
    OtherRegs [x] s t ∧ t.pc = s.pc + 2 ∧ OnlyChanges [.v, .pc] s t

/-- `7xnn` completes in every state: `V[x]` is the sum mod 256, and no flag is written even where the
sum passes 255 (R76). -/
def Obligations.AddiAddsWithoutFlag : Prop :=
  EncodedAs 0xF000 0x7000 (fun w => .addi (fieldX w) (fieldNN w)) ∧
  ∀ (x : Reg) (nn : Byte) (s : State), ∃ t, exec (.addi x nn) s = .next t ∧
    (t.readV x).toNat = ((s.readV x).toNat + nn.toNat) % 256 ∧
    OtherRegs [x] s t ∧ t.pc = s.pc + 2 ∧ OnlyChanges [.v, .pc] s t

/-- `8xy0` to `8xy3` complete in every state: copy, OR, AND, XOR into `V[x]`, no flag (R77 to R80). -/
def Obligations.CopyAndLogic : Prop :=
  EncodedAs 0xF00F 0x8000 (fun w => .mov (fieldX w) (fieldY w)) ∧
  EncodedAs 0xF00F 0x8001 (fun w => .or (fieldX w) (fieldY w)) ∧
  EncodedAs 0xF00F 0x8002 (fun w => .and (fieldX w) (fieldY w)) ∧
  EncodedAs 0xF00F 0x8003 (fun w => .xor (fieldX w) (fieldY w)) ∧
  ∀ (x y : Reg) (s : State),
    (∃ t, exec (.mov x y) s = .next t ∧ t.readV x = s.readV y ∧
      OtherRegs [x] s t ∧ t.pc = s.pc + 2 ∧ OnlyChanges [.v, .pc] s t) ∧
    (∃ t, exec (.or x y) s = .next t ∧ t.readV x = s.readV x ||| s.readV y ∧
      OtherRegs [x] s t ∧ t.pc = s.pc + 2 ∧ OnlyChanges [.v, .pc] s t) ∧
    (∃ t, exec (.and x y) s = .next t ∧ t.readV x = s.readV x &&& s.readV y ∧
      OtherRegs [x] s t ∧ t.pc = s.pc + 2 ∧ OnlyChanges [.v, .pc] s t) ∧
    (∃ t, exec (.xor x y) s = .next t ∧ t.readV x = s.readV x ^^^ s.readV y ∧
      OtherRegs [x] s t ∧ t.pc = s.pc + 2 ∧ OnlyChanges [.v, .pc] s t)

/-- `8xy4` completes in every state: `V[x]` is the sum mod 256 (unless `x` is 0xF), `V[0xF]` is 1
exactly when the sum exceeds 255, else 0 (R81). -/
def Obligations.AddSetsCarry : Prop :=
  EncodedAs 0xF00F 0x8004 (fun w => .add (fieldX w) (fieldY w)) ∧
  ∀ (x y : Reg) (s : State), ∃ t, exec (.add x y) s = .next t ∧
    (x ≠ flagReg → (t.readV x).toNat = ((s.readV x).toNat + (s.readV y).toNat) % 256) ∧
    t.readV flagReg = (if 255 < (s.readV x).toNat + (s.readV y).toNat then 1 else 0) ∧
    OtherRegs [x, flagReg] s t ∧ t.pc = s.pc + 2 ∧ OnlyChanges [.v, .pc] s t

/-- `8xy5` and `8xy7` complete in every state: `V[x] - V[y]`, for the other `V[y] - V[x]`, mod 256
into `V[x]` (unless `x` is 0xF); `V[0xF]` is 1 exactly when the minuend is STRICTLY greater, so equal
operands give 0 (R82, R84). -/
def Obligations.SubtractionsSetGreater : Prop :=
  EncodedAs 0xF00F 0x8005 (fun w => .sub (fieldX w) (fieldY w)) ∧
  EncodedAs 0xF00F 0x8007 (fun w => .subn (fieldX w) (fieldY w)) ∧
  ∀ (x y : Reg) (s : State),
    (∃ t, exec (.sub x y) s = .next t ∧
      (x ≠ flagReg → (t.readV x).toNat = ((s.readV x).toNat + 256 - (s.readV y).toNat) % 256) ∧
      t.readV flagReg = (if (s.readV y).toNat < (s.readV x).toNat then 1 else 0) ∧
      OtherRegs [x, flagReg] s t ∧ t.pc = s.pc + 2 ∧ OnlyChanges [.v, .pc] s t) ∧
    (∃ t, exec (.subn x y) s = .next t ∧
      (x ≠ flagReg → (t.readV x).toNat = ((s.readV y).toNat + 256 - (s.readV x).toNat) % 256) ∧
      t.readV flagReg = (if (s.readV x).toNat < (s.readV y).toNat then 1 else 0) ∧
      OtherRegs [x, flagReg] s t ∧ t.pc = s.pc + 2 ∧ OnlyChanges [.v, .pc] s t)

/-- `8xy6` and `8xyE` complete in every state, whatever the ignored `y`: `V[x]` halved, for the other
doubled mod 256 (unless `x` is 0xF); `V[0xF]` is the bit shifted out (R83, R85). -/
def Obligations.ShiftsSetBitOut : Prop :=
  EncodedAs 0xF00F 0x8006 (fun w => .shr (fieldX w) (fieldY w)) ∧
  EncodedAs 0xF00F 0x800E (fun w => .shl (fieldX w) (fieldY w)) ∧
  ∀ (x : Reg) (ign : Nibble) (s : State),
    (∃ t, exec (.shr x ign) s = .next t ∧
      (x ≠ flagReg → (t.readV x).toNat = (s.readV x).toNat / 2) ∧
      (t.readV flagReg).toNat = (s.readV x).toNat % 2 ∧
      OtherRegs [x, flagReg] s t ∧ t.pc = s.pc + 2 ∧ OnlyChanges [.v, .pc] s t) ∧
    (∃ t, exec (.shl x ign) s = .next t ∧
      (x ≠ flagReg → (t.readV x).toNat = (s.readV x).toNat * 2 % 256) ∧
      (t.readV flagReg).toNat = (s.readV x).toNat / 128 ∧
      OtherRegs [x, flagReg] s t ∧ t.pc = s.pc + 2 ∧ OnlyChanges [.v, .pc] s t)

/-! ## Address register, random byte (spec/43_index_jump_random.md, 46_misc_F.md) -/

/-- `Annn` completes in every state: `I` is `nnn`, its top four bits 0 (R90). -/
def Obligations.LdaSetsAddressRegister : Prop :=
  EncodedAs 0xF000 0xA000 (fun w => .lda (fieldNNN w)) ∧
  ∀ (nnn : Addr12) (s : State), ∃ t, exec (.lda nnn) s = .next t ∧ t.i.toNat = nnn.toNat ∧
    t.pc = s.pc + 2 ∧ OnlyChanges [.i, .pc] s t

/-- `Fx1E` and `Fx29` complete in every state: `I + V[x]` mod 2^16, for the other the whole byte `V[x]`
times 5, into `I`; no flag (R111, R112). -/
def Obligations.AddressArithmetic : Prop :=
  EncodedAs 0xF0FF 0xF01E (fun w => .adda (fieldX w)) ∧
  EncodedAs 0xF0FF 0xF029 (fun w => .font (fieldX w)) ∧
  ∀ (x : Reg) (s : State),
    (∃ t, exec (.adda x) s = .next t ∧ t.i.toNat = (s.i.toNat + (s.readV x).toNat) % 65536 ∧
      t.pc = s.pc + 2 ∧ OnlyChanges [.i, .pc] s t) ∧
    (∃ t, exec (.font x) s = .next t ∧ t.i.toNat = (s.readV x).toNat * 5 ∧
      t.pc = s.pc + 2 ∧ OnlyChanges [.i, .pc] s t)

/-- `Cxnn` completes in every state: `V[x]` is the drawn byte AND `nn`, whatever byte is drawn, so a
subset of the bits of `nn` (R92). The draw is the model's free value, and the model counts it (log
entry 3). -/
def Obligations.RndMasksTheDraw : Prop :=
  EncodedAs 0xF000 0xC000 (fun w => .rnd (fieldX w) (fieldNN w)) ∧
  ∀ (x : Reg) (nn : Byte) (s : State), ∃ t, exec (.rnd x nn) s = .next t ∧
    t.readV x = Config.drawByte s.draws &&& nn ∧ t.readV x &&& ~~~nn = 0 ∧ t.draws = s.draws + 1 ∧
    OtherRegs [x] s t ∧ t.pc = s.pc + 2 ∧ OnlyChanges [.v, .pc, .draws] s t

/-! ## Draw (spec/44_draw.md) -/

/-- `Dxyn` completes where its bytes lie in memory and its rectangle on the display, or `n` is 0: every
pixel is XORed with the sprite's bit there, `V[0xF]` is 1 exactly when a lit pixel was turned off, else
0, and one `Refresh` is emitted (R95, R97). That bit 7 is the leftmost pixel is the spec's own decision
D9, from general knowledge (G3; log entry 8); what a collision is, its decision D10. -/
def Obligations.DrwXorsSprite : Prop :=
  EncodedAs 0xF000 0xD000 (fun w => .drw (fieldX w) (fieldY w) (fieldN w)) ∧
  ∀ (x y : Reg) (n : Nibble) (s : State), DrawFits s x y n →
    ∃ t, exec (.drw x y n) s = .next t ∧
      (∀ px py, t.pixel px py = (s.pixel px py ^^ spriteAt s x y n px py)) ∧
      (t.readV flagReg = 1 ↔ ∃ px py, s.pixel px py = true ∧ spriteAt s x y n px py = true) ∧
      (t.readV flagReg = 0 ∨ t.readV flagReg = 1) ∧ t.refreshes = s.refreshes + 1 ∧
      OtherRegs [flagReg] s t ∧ t.pc = s.pc + 2 ∧ OnlyChanges [.fb, .v, .pc, .refreshes] s t

/-- The range checks of `Dxyn`, made before anything is written: bytes beyond memory raise
`OutOfRange(Mem)`, else a rectangle off the display raises `OutOfRange(Pixel)`, whatever the sprite's
bits; with `n` = 0 neither is made and the draw completes without drawing (R96; the spec's decisions
D6, D8, D11). -/
def Obligations.DrwRangeFaults : Prop :=
  ∀ (x y : Reg) (n : Nibble) (s : State),
    (1 ≤ n.val → 0xFFF < s.i.toNat + n.val - 1 →
      exec (.drw x y n) s = .next { s with fault := some (.outOfRange .mem) }) ∧
    (1 ≤ n.val → s.i.toNat + n.val - 1 ≤ 0xFFF →
      (63 < (s.readV x).toNat + 7 ∨ 31 < (s.readV y).toNat + n.val - 1) →
      exec (.drw x y n) s = .next { s with fault := some (.outOfRange .pixel) }) ∧
    (n.val = 0 → ∃ t, exec (.drw x y n) s = .next t ∧ t.fault = s.fault ∧ t.readV flagReg = 0 ∧
      t.refreshes = s.refreshes + 1 ∧ ∀ px py, t.pixel px py = s.pixel px py)

/-- Two identical draws one after the other leave the display as it was; the first reports no
collision if every pixel under its 1 bits was off, and then the second reports one exactly when the
sprite has a 1 bit (R98). -/
def Obligations.DrwTwiceRestoresDisplay : Prop :=
  ∀ (x y : Reg) (n : Nibble) (s : State), x ≠ flagReg → y ≠ flagReg → DrawFits s x y n →
    ∃ t u, exec (.drw x y n) s = .next t ∧ exec (.drw x y n) t = .next u ∧
      (∀ px py, u.pixel px py = s.pixel px py) ∧
      ((∀ px py, spriteAt s x y n px py = true → s.pixel px py = false) →
        t.readV flagReg = 0 ∧
        (u.readV flagReg = 1 ↔ ∃ px py, spriteAt s x y n px py = true)) ∧
      u.refreshes = s.refreshes + 2

/-! ## Family 0xF (spec/46_misc_F.md) -/

/-- `Fx07`, `Fx15` and `Fx18` complete in every state: `V[x]` from `DT`, `DT` from `V[x]`, `ST` from
`V[x]` (R106, R109, R110). -/
def Obligations.TimerAccess : Prop :=
  EncodedAs 0xF0FF 0xF007 (fun w => .lddt (fieldX w)) ∧
  EncodedAs 0xF0FF 0xF015 (fun w => .stdt (fieldX w)) ∧
  EncodedAs 0xF0FF 0xF018 (fun w => .stst (fieldX w)) ∧
  ∀ (x : Reg) (s : State),
    (∃ t, exec (.lddt x) s = .next t ∧ t.readV x = s.dt ∧ OtherRegs [x] s t ∧ t.pc = s.pc + 2 ∧
      OnlyChanges [.v, .pc] s t) ∧
    (∃ t, exec (.stdt x) s = .next t ∧ t.dt = s.readV x ∧ t.pc = s.pc + 2 ∧
      OnlyChanges [.dt, .pc] s t) ∧
    (∃ t, exec (.stst x) s = .next t ∧ t.st = s.readV x ∧ t.pc = s.pc + 2 ∧
      OnlyChanges [.st, .pc] s t)

/-- `Fx0A` completes in every state: the latch is set, `x` recorded, `pc` + 2; no register is loaded
in this step, even with a key down. The step after it, on a core not Faulted, ends the wait when a key
is already down, loading the number of a key that is down into `V[x]`, and is a no-op when none is; in
both cases `pc` is held at the address after the `Fx0A` (R107, R108; the spec's decision D21). That a
key's NUMBER is loaded is the spec's own decision D22, from general knowledge (G4; log entry 8); which
key is the model's free value (log entry 4). -/
def Obligations.WkeyStartsWait : Prop :=
  EncodedAs 0xF0FF 0xF00A (fun w => .wkey (fieldX w)) ∧
  ∀ (x : Reg) (s : State), ∃ t, exec (.wkey x) s = .next t ∧ t.wait = true ∧ t.waitx = x ∧
    t.pc = s.pc + 2 ∧ OnlyChanges [.wait, .waitx, .pc] s t ∧
    (s.fault = none → s.keys = 0 → step t = .next t) ∧
    (s.fault = none → s.keys ≠ 0 → ∃ u, step t = .next u ∧ u.wait = false ∧ u.pc = s.pc + 2 ∧
      (u.readV x).toNat ≤ 15 ∧ s.keys.getLsbD (u.readV x).toNat = true)

/-- `Fx33` completes where `I + 2` is at most 0xFFF: the hundreds, tens and units of `V[x]` at `I`,
`I + 1`, `I + 2` and no other byte; beyond, `OutOfRange(Mem)` and nothing written (R113; the spec's
decision D6). -/
def Obligations.BcdStoresDigits : Prop :=
  EncodedAs 0xF0FF 0xF033 (fun w => .bcd (fieldX w)) ∧
  ∀ (x : Reg) (s : State),
    (s.i.toNat + 2 ≤ 0xFFF → ∃ t, exec (.bcd x) s = .next t ∧
      (t.mem.read s.i.toNat).toNat = (s.readV x).toNat / 100 ∧
      (t.mem.read (s.i.toNat + 1)).toNat = (s.readV x).toNat / 10 % 10 ∧
      (t.mem.read (s.i.toNat + 2)).toNat = (s.readV x).toNat % 10 ∧
      OtherBytes s.i.toNat 3 s t ∧ t.pc = s.pc + 2 ∧ OnlyChanges [.mem, .pc] s t) ∧
    (0xFFF < s.i.toNat + 2 → exec (.bcd x) s = .next { s with fault := some (.outOfRange .mem) })

/-- `Fx55` completes where `I + x` is at most 0xFFF: `V[0..x]` at `I` up and no other byte, `I`
unchanged; beyond, `OutOfRange(Mem)` and nothing written (R114; the spec's decisions D6, D20). -/
def Obligations.StmStoresBlock : Prop :=
  EncodedAs 0xF0FF 0xF055 (fun w => .stm (fieldX w)) ∧
  ∀ (x : Reg) (s : State),
    (s.i.toNat + x.val ≤ 0xFFF → ∃ t, exec (.stm x) s = .next t ∧
      (∀ r, r ≤ x → t.mem.read (s.i.toNat + r.val) = s.readV r) ∧
      OtherBytes s.i.toNat (x.val + 1) s t ∧ t.pc = s.pc + 2 ∧ OnlyChanges [.mem, .pc] s t) ∧
    (0xFFF < s.i.toNat + x.val → exec (.stm x) s = .next { s with fault := some (.outOfRange .mem) })

/-- `Fx65` completes where `I + x` is at most 0xFFF: `V[0..x]` from the bytes at `I` up and no other
register, `I` unchanged; beyond, `OutOfRange(Mem)` and nothing loaded (R115; the spec's decisions D6,
D20). -/
def Obligations.LdmLoadsBlock : Prop :=
  EncodedAs 0xF0FF 0xF065 (fun w => .ldm (fieldX w)) ∧
  ∀ (x : Reg) (s : State),
    (s.i.toNat + x.val ≤ 0xFFF → ∃ t, exec (.ldm x) s = .next t ∧
      (∀ r, r ≤ x → t.readV r = s.mem.read (s.i.toNat + r.val)) ∧
      (∀ r, x < r → t.readV r = s.readV r) ∧ t.pc = s.pc + 2 ∧ OnlyChanges [.v, .pc] s t) ∧
    (0xFFF < s.i.toNat + x.val → exec (.ldm x) s = .next { s with fault := some (.outOfRange .mem) })

/-- A block stored and then loaded with the same `x` and the same `I`, whatever the registers hold by
then: the registers of the block are what they were (R114, R115). -/
def Obligations.StoreThenLoadRoundTrips : Prop :=
  ∀ (x : Reg) (s : State), s.i.toNat + x.val ≤ 0xFFF →
    ∃ t, exec (.stm x) s = .next t ∧
      ∀ u : State, u.i = s.i → (∀ a, u.mem.read a = t.mem.read a) →
        ∃ w, exec (.ldm x) u = .next w ∧ ∀ r, r ≤ x → w.readV r = s.readV r

/-- Stores are seen by the very next fetch: a `Fx55` that overwrites the two bytes after itself is
followed by a fetch of the bytes it stored (R40). -/
def Obligations.StoredCodeIsFetchedNext : Prop :=
  ∀ (x a b : Reg) (s : State), s.Fetches (.stm x) → s.i.toNat + x.val ≤ 0xFFF → a ≤ x → b ≤ x →
    s.i.toNat + a.val = s.pc.toNat + 2 → s.i.toNat + b.val = s.pc.toNat + 3 →
    ∃ t, step s = .next t ∧ t.Running ∧ t.fetchWord = some (joinWord (s.readV a) (s.readV b))
end

