-- ==== Sys2Proof/Laws/Display.lean ====
section
/-! SUPPORT. What the display operations do (spec/10_state.md R16, 44_draw.md R95, R97). -/

namespace Sys2Proof.Machine

/-- A pixel after one pixel is set: that one, if it is on the display, and no other. -/
theorem Display.get_set (fb : Display) (px py qx qy : Nat) (b : Bool) :
    (fb.set px py b).get qx qy = if qx = px ∧ qy = py ∧ px < 64 ∧ py < 32 then b else fb.get qx qy := by
  unfold Display.set Display.get
  by_cases hp : px < 64 ∧ py < 32
  · by_cases hq : qx < 64 ∧ qy < 32
    · by_cases hy : qy = py
      · subst hy
        by_cases hx : qx = px
        · subst hx; simp [hq]
        · simp [hp, hq, hx, Ne.symm hx]
      · simp [hp, hq, hy, Ne.symm hy]
    · have : ¬(qx = px ∧ qy = py) := by rintro ⟨rfl, rfl⟩; exact hq hp
      rw [dif_neg hq, dif_neg hq, if_neg (fun c => this ⟨c.1, c.2.1⟩)]
  · simp [hp]

/-- Every pixel of the blank display is off (R60). -/
@[simp] theorem Display.get_blank (px py : Nat) : Display.blank.get px py = false := by
  simp [Display.get, Display.blank]

/-- What drawing one pixel leaves at every pixel (R95). -/
theorem drawPixel_get (b : Byte) (x0 y col : Nat) (acc : Display × Bool) (px py : Nat)
    (hx : x0 + col < 64) (hy : y < 32) :
    (drawPixel b x0 y col acc).1.get px py =
      (acc.1.get px py ^^ (decide (px = x0 + col ∧ py = y) && spriteBit b col)) := by
  simp only [drawPixel, Display.get_set]
  by_cases h : px = x0 + col ∧ py = y
  · obtain ⟨rfl, rfl⟩ := h
    simp [hx, hy]
  · rw [if_neg (fun c => h ⟨c.1, c.2.1⟩)]
    simp [h]

/-- The hit after drawing one pixel: a lit pixel was turned off (R97). -/
theorem drawPixel_hit (b : Byte) (x0 y col : Nat) (acc : Display × Bool) :
    (drawPixel b x0 y col acc).2 = (acc.2 || (spriteBit b col && acc.1.get (x0 + col) y)) := rfl

end Sys2Proof.Machine
end

