-- ==== Sys2Proof/Laws/Encoding.lean ====
section
/-! SUPPORT. The fields of a word put together from fields, a word put together again from its fields,
the masks of the opcode map, and the operand checks (spec/30_encoding.md R47 to R50). -/

namespace Sys2Proof

/-- Every instruction passes the operand checks: its operands' types carry them. -/
theorem Instr.wf_all (i : Instr) : i.wf = true := by
  have hb (b : Byte) : b.toNat < 256 := b.isLt
  have ha (a : Addr12) : a.toNat < 4096 := a.isLt
  cases i <;> simp [Instr.wf, WellFormed.regOk, WellFormed.nibbleOk, WellFormed.byteOk, WellFormed.addrOk, hb, ha]

/-! ## Fields of a word put together from fields -/

theorem nibbleBits_toFin (b : BitVec 4) : nibbleBits b.toFin = b := rfl

theorem toFin_nibbleBits (k : Fin 16) : (nibbleBits k).toFin = k := rfl

@[simp] theorem fieldOp_encNNN (op : BitVec 4) (a : Addr12) : fieldOp (encNNN op a) = op := by
  unfold fieldOp encNNN
  ext i hi
  interval_cases i <;> simp

@[simp] theorem fieldNNN_encNNN (op : BitVec 4) (a : Addr12) : fieldNNN (encNNN op a) = a := by
  unfold fieldNNN encNNN
  ext i hi
  interval_cases i <;> simp

@[simp] theorem fieldOp_encXNN (op : BitVec 4) (x : Reg) (nn : Byte) : fieldOp (encXNN op x nn) = op := by
  unfold fieldOp encXNN
  ext i hi
  interval_cases i <;> simp

@[simp] theorem fieldX_encXNN (op : BitVec 4) (x : Reg) (nn : Byte) : fieldX (encXNN op x nn) = x := by
  have : (encXNN op x nn).extractLsb' 8 4 = nibbleBits x := by
    unfold encXNN
    ext i hi
    interval_cases i <;> simp
  rw [fieldX, this, toFin_nibbleBits]

@[simp] theorem fieldNN_encXNN (op : BitVec 4) (x : Reg) (nn : Byte) : fieldNN (encXNN op x nn) = nn := by
  unfold fieldNN encXNN
  ext i hi
  interval_cases i <;> simp

@[simp] theorem fieldOp_encXYN (op : BitVec 4) (x y : Reg) (n : Nibble) : fieldOp (encXYN op x y n) = op := by
  unfold fieldOp encXYN
  ext i hi
  interval_cases i <;> simp

@[simp] theorem fieldX_encXYN (op : BitVec 4) (x y : Reg) (n : Nibble) : fieldX (encXYN op x y n) = x := by
  have : (encXYN op x y n).extractLsb' 8 4 = nibbleBits x := by
    unfold encXYN
    ext i hi
    interval_cases i <;> simp
  rw [fieldX, this, toFin_nibbleBits]

@[simp] theorem fieldY_encXYN (op : BitVec 4) (x y : Reg) (n : Nibble) : fieldY (encXYN op x y n) = y := by
  have : (encXYN op x y n).extractLsb' 4 4 = nibbleBits y := by
    unfold encXYN
    ext i hi
    interval_cases i <;> simp
  rw [fieldY, this, toFin_nibbleBits]

@[simp] theorem fieldN_encXYN (op : BitVec 4) (x y : Reg) (n : Nibble) : fieldN (encXYN op x y n) = n := by
  have : (encXYN op x y n).extractLsb' 0 4 = nibbleBits n := by
    unfold encXYN
    ext i hi
    interval_cases i <;> simp
  rw [fieldN, this, toFin_nibbleBits]

/-! ## A word put together again from its fields -/

theorem encNNN_fields (w : Word) : encNNN (fieldOp w) (fieldNNN w) = w := by
  unfold encNNN fieldOp fieldNNN
  ext i hi
  interval_cases i <;> simp

theorem encXNN_fields (w : Word) : encXNN (fieldOp w) (fieldX w) (fieldNN w) = w := by
  unfold encXNN fieldOp fieldX fieldNN
  rw [nibbleBits_toFin]
  ext i hi
  interval_cases i <;> simp

theorem encXYN_fields (w : Word) : encXYN (fieldOp w) (fieldX w) (fieldY w) (fieldN w) = w := by
  unfold encXYN fieldOp fieldX fieldY fieldN
  rw [nibbleBits_toFin, nibbleBits_toFin, nibbleBits_toFin]
  ext i hi
  interval_cases i <;> simp

/-- The two bytes of a word, joined again, are the word (R31). -/
@[simp] theorem joinWord_bytes (w : Word) : joinWord (hiByte w) (loByte w) = w := by
  unfold joinWord hiByte loByte
  ext i hi
  interval_cases i <;> simp

/-! ## The masks of the opcode map (R50) -/

/-- A word passes the mask 0xF000 exactly when its top nibble is the pattern's. -/
theorem mask_op (w : Word) (op : BitVec 4) : w &&& 0xF000#16 = op.setWidth 16 <<< 12 ↔ fieldOp w = op := by
  constructor
  · intro h
    unfold fieldOp
    ext i hi
    have := congrArg (fun v => v.getLsbD (12 + i)) h
    interval_cases i <;> simp at this ⊢ <;> simp_all
  · rintro rfl
    unfold fieldOp
    ext i hi
    interval_cases i <;> simp

/-- The mask 0xF00F tests the top and the low nibble. -/
theorem mask_op_n (w : Word) (op : BitVec 4) (n : Nibble) :
    w &&& 0xF00F#16 = op.setWidth 16 <<< 12 ||| (nibbleBits n).setWidth 16 ↔ fieldOp w = op ∧ fieldN w = n := by
  constructor
  · intro h
    have hn : w.extractLsb' 0 4 = nibbleBits n := by
      ext i hi
      have := congrArg (fun v => v.getLsbD i) h
      interval_cases i <;> simp at this ⊢ <;> simp_all
    refine ⟨?_, by rw [fieldN, hn, toFin_nibbleBits]⟩
    unfold fieldOp
    ext i hi
    have := congrArg (fun v => v.getLsbD (12 + i)) h
    interval_cases i <;> simp at this ⊢ <;> simp_all
  · rintro ⟨rfl, rfl⟩
    unfold fieldOp fieldN
    rw [nibbleBits_toFin]
    ext i hi
    interval_cases i <;> simp

/-- The mask 0xF0FF tests the top nibble and the low byte. -/
theorem mask_op_nn (w : Word) (op : BitVec 4) (nn : Byte) :
    w &&& 0xF0FF#16 = op.setWidth 16 <<< 12 ||| nn.setWidth 16 ↔ fieldOp w = op ∧ fieldNN w = nn := by
  constructor
  · intro h
    constructor
    · unfold fieldOp
      ext i hi
      have := congrArg (fun v => v.getLsbD (12 + i)) h
      interval_cases i <;> simp at this ⊢ <;> simp_all
    · unfold fieldNN
      ext i hi
      have := congrArg (fun v => v.getLsbD i) h
      interval_cases i <;> simp at this ⊢ <;> simp_all
  · rintro ⟨rfl, rfl⟩
    unfold fieldOp fieldNN
    ext i hi
    interval_cases i <;> simp

/-! ## The fields as numbers -/

theorem fieldOp_toNat (w : Word) : (fieldOp w).toNat = w.toNat / 4096 := by
  simp [fieldOp, BitVec.extractLsb'_toNat, Nat.shiftRight_eq_div_pow]
  omega

theorem fieldN_val (w : Word) : (fieldN w).val = w.toNat % 16 := by
  simp [fieldN]

theorem fieldNN_toNat (w : Word) : (fieldNN w).toNat = w.toNat % 256 := by
  simp [fieldNN, BitVec.extractLsb'_toNat]

end Sys2Proof
end

