-- ==== Sys2Proof/Laws/Memory.lean ====
section
/-! SUPPORT. What the memory operations do (spec/20_memory.md R35, R38) and that each keeps the
canonical form. -/

namespace Sys2Proof.Machine

/-! ## Reads after writes -/

@[simp] theorem Memory.read_nil (a : Nat) : Memory.read [] a = 0 := rfl

theorem Memory.read_erase (m : Memory) (a b : Nat) :
    (m.erase a).read b = if b = a then 0 else m.read b := by
  induction m with
  | nil => simp [Memory.erase]
  | cons c t ih =>
    obtain ⟨k, w⟩ := c
    by_cases hk : a = k <;> by_cases hb : b = a <;> simp_all [Memory.erase, Memory.read]

theorem Memory.read_insert_erase (m : Memory) (a b : Nat) (v : Byte) :
    ((m.erase a).insert a v).read b = if b = a then v else m.read b := by
  induction m with
  | nil => simp [Memory.erase, Memory.insert, Memory.read, unlisted]
  | cons c t ih =>
    obtain ⟨k, w⟩ := c
    by_cases hk : a = k
    · by_cases hb : b = a <;> simp_all [Memory.erase, Memory.read]
    · by_cases hlt : a < k
      · by_cases hb : b = a <;> simp [Memory.erase, Memory.insert, Memory.read, Memory.read_erase, hk, hlt, hb]
      · rw [Memory.erase, if_neg hk, Memory.insert, if_neg hlt, Memory.read, ih, Memory.read]
        by_cases hb : b = a <;> simp [hb, hk]

/-- A read after a write to the same address gives the byte written, and every other address reads as
before (R35, R38). -/
theorem Memory.read_write (m : Memory) (a b : Nat) (v : Byte) :
    (m.write a v).read b = if b = a then v else m.read b := by
  unfold Memory.write
  split
  · next h => rw [Memory.read_erase, h]; rfl
  · exact Memory.read_insert_erase m a b v

/-- What a block store leaves at every address: the byte stored there, or the old one (R33, R38). -/
theorem Memory.read_writeBytes (bs : List Byte) (m : Memory) (base a : Nat) :
    (m.writeBytes base bs).read a =
      if base ≤ a ∧ a < base + bs.length then bs.getD (a - base) 0 else m.read a := by
  induction bs generalizing m base with
  | nil => simp [Memory.writeBytes]
  | cons b bs ih =>
    rw [Memory.writeBytes, ih, Memory.read_write]
    by_cases h1 : a = base
    · subst h1
      simp
    · by_cases h2 : base + 1 ≤ a ∧ a < base + 1 + bs.length
      · obtain ⟨d, rfl⟩ : ∃ d, a = base + 1 + d := ⟨a - (base + 1), by omega⟩
        rw [if_pos h2, if_pos (by simp; omega), show base + 1 + d - base = d + 1 by omega]
        simp
      · rw [if_neg h2, if_neg h1, if_neg (by simp; omega)]

@[simp] theorem Memory.length_readBytes (m : Memory) (base n : Nat) : (m.readBytes base n).length = n := by
  induction n generalizing base with
  | zero => rfl
  | succ n ih => simp [Memory.readBytes, ih]

/-- A block read gives the byte at each address (R30). -/
theorem Memory.getD_readBytes (m : Memory) (base n k : Nat) (h : k < n) :
    (m.readBytes base n).getD k 0 = m.read (base + k) := by
  induction n generalizing base k with
  | zero => omega
  | succ n ih =>
    cases k with
    | zero => simp [Memory.readBytes]
    | succ k =>
      simp only [Memory.readBytes, List.getD_cons_succ]
      rw [ih (base + 1) k (by omega), show base + 1 + k = base + (k + 1) by omega]

/-- A block read depends only on the bytes it reads. -/
theorem Memory.readBytes_congr (m m' : Memory) (base n : Nat)
    (h : ∀ a, base ≤ a → a < base + n → m.read a = m'.read a) : m.readBytes base n = m'.readBytes base n := by
  induction n generalizing base with
  | zero => rfl
  | succ n ih =>
    simp only [Memory.readBytes]
    rw [h base (by omega) (by omega), ih (base + 1) (fun a h1 h2 => h a (by omega) (by omega))]

/-! ## The canonical form -/

theorem Memory.wfFrom_mono {m : Memory} {lo hi : Nat} (h : lo ≤ hi) (hm : m.wfFrom hi = true) :
    m.wfFrom lo = true := by
  cases m with
  | nil => rfl
  | cons c t =>
    obtain ⟨k, w⟩ := c
    simp only [Memory.wfFrom, Bool.and_eq_true, decide_eq_true_eq] at hm ⊢
    exact ⟨⟨⟨by omega, hm.1.1.2⟩, hm.1.2⟩, hm.2⟩

theorem Memory.wfFrom_erase {m : Memory} {lo : Nat} (a : Nat) (hm : m.wfFrom lo = true) :
    (m.erase a).wfFrom lo = true := by
  induction m generalizing lo with
  | nil => rfl
  | cons c t ih =>
    obtain ⟨k, w⟩ := c
    simp only [Memory.wfFrom, Bool.and_eq_true, decide_eq_true_eq] at hm
    simp only [Memory.erase]
    split
    · exact Memory.wfFrom_mono (by omega) (ih hm.2)
    · simp only [Memory.wfFrom, Bool.and_eq_true, decide_eq_true_eq]
      exact ⟨hm.1, ih hm.2⟩

theorem Memory.wfFrom_insert_erase {m : Memory} {lo a : Nat} {v : Byte} (hlo : lo ≤ a)
    (ha : a < Config.memSize) (hv : v ≠ unlisted) (hm : m.wfFrom lo = true) :
    ((m.erase a).insert a v).wfFrom lo = true := by
  induction m generalizing lo with
  | nil => simp [Memory.erase, Memory.insert, Memory.wfFrom, hlo, ha, hv]
  | cons c t ih =>
    obtain ⟨k, w⟩ := c
    simp only [Memory.wfFrom, Bool.and_eq_true, decide_eq_true_eq] at hm
    simp only [Memory.erase]
    split
    · exact ih hlo (Memory.wfFrom_mono (by omega) hm.2)
    · simp only [Memory.insert]
      split
      · simp only [Memory.wfFrom, Bool.and_eq_true, decide_eq_true_eq]
        exact ⟨⟨⟨hlo, ha⟩, hv⟩, ⟨⟨by omega, hm.1.1.2⟩, hm.1.2⟩, Memory.wfFrom_erase a hm.2⟩
      · simp only [Memory.wfFrom, Bool.and_eq_true, decide_eq_true_eq]
        exact ⟨hm.1, ih (by omega) hm.2⟩

/-- A write of a byte that exists keeps the canonical form. -/
theorem Memory.wf_write {m : Memory} {a : Nat} (v : Byte) (ha : a < Config.memSize) (hm : m.wf = true) :
    (m.write a v).wf = true := by
  unfold Memory.write
  split
  · exact Memory.wfFrom_erase a hm
  · next hv => exact Memory.wfFrom_insert_erase (Nat.zero_le a) ha hv hm

/-- A block store within memory keeps the canonical form. -/
theorem Memory.wf_writeBytes {bs : List Byte} {m : Memory} {base : Nat}
    (hb : base + bs.length ≤ Config.memSize) (hm : m.wf = true) : (m.writeBytes base bs).wf = true := by
  induction bs generalizing m base with
  | nil => exact hm
  | cons b bs ih =>
    simp only [List.length_cons] at hb
    exact ih (by omega) (Memory.wf_write b (by omega) hm)

theorem Memory.wf_reset : State.reset.mem.wf = true := rfl

/-- The range check is a bound on the last address (R33). -/
theorem dataFits_iff (base len : Nat) : dataFits base len = true ↔ len = 0 ∨ base + len - 1 ≤ 0xFFF := by
  simp [dataFits]

/-- What passed the range check lies in memory. -/
theorem dataFits_le {base len : Nat} (h : dataFits base len = true) (hl : 0 < len) :
    base + len ≤ Config.memSize := by
  rw [dataFits_iff] at h
  simp only [Config.memSize]
  omega

/-- `Load` keeps the canonical form (R141). -/
theorem hostLoad_wf (p : List Byte) {s : State} (h : s.mem.wf = true) : (hostLoad p s).1.mem.wf = true := by
  unfold hostLoad
  split
  · exact h
  · next hp =>
    refine Memory.wf_writeBytes ?_ rfl
    simp only [Config.maxProg, Config.progBase, Config.memSize] at *
    omega

end Sys2Proof.Machine
end

