-- ==== Sys2Proof/Laws/State.lean ====
section
/-! SUPPORT. One lemma per field per update of the state, and what a read gives after an update, so
that no proof unfolds a record update. -/

namespace Sys2Proof.Machine

/-! ### setV -/

@[simp] theorem State.setV_pc (s : State) (x : Reg) (b : Byte) : (s.setV x b).pc = s.pc := rfl
@[simp] theorem State.setV_i (s : State) (x : Reg) (b : Byte) : (s.setV x b).i = s.i := rfl
@[simp] theorem State.setV_sp (s : State) (x : Reg) (b : Byte) : (s.setV x b).sp = s.sp := rfl
@[simp] theorem State.setV_stk (s : State) (x : Reg) (b : Byte) : (s.setV x b).stk = s.stk := rfl
@[simp] theorem State.setV_mem (s : State) (x : Reg) (b : Byte) : (s.setV x b).mem = s.mem := rfl
@[simp] theorem State.setV_fb (s : State) (x : Reg) (b : Byte) : (s.setV x b).fb = s.fb := rfl
@[simp] theorem State.setV_dt (s : State) (x : Reg) (b : Byte) : (s.setV x b).dt = s.dt := rfl
@[simp] theorem State.setV_st (s : State) (x : Reg) (b : Byte) : (s.setV x b).st = s.st := rfl
@[simp] theorem State.setV_keys (s : State) (x : Reg) (b : Byte) : (s.setV x b).keys = s.keys := rfl
@[simp] theorem State.setV_wait (s : State) (x : Reg) (b : Byte) : (s.setV x b).wait = s.wait := rfl
@[simp] theorem State.setV_waitx (s : State) (x : Reg) (b : Byte) : (s.setV x b).waitx = s.waitx := rfl
@[simp] theorem State.setV_fault (s : State) (x : Reg) (b : Byte) : (s.setV x b).fault = s.fault := rfl
@[simp] theorem State.setV_draws (s : State) (x : Reg) (b : Byte) : (s.setV x b).draws = s.draws := rfl
@[simp] theorem State.setV_refreshes (s : State) (x : Reg) (b : Byte) : (s.setV x b).refreshes = s.refreshes := rfl

/-! ### setPc -/

@[simp] theorem State.setPc_v (s : State) (p : Word) : (s.setPc p).v = s.v := rfl
@[simp] theorem State.setPc_i (s : State) (p : Word) : (s.setPc p).i = s.i := rfl
@[simp] theorem State.setPc_sp (s : State) (p : Word) : (s.setPc p).sp = s.sp := rfl
@[simp] theorem State.setPc_stk (s : State) (p : Word) : (s.setPc p).stk = s.stk := rfl
@[simp] theorem State.setPc_mem (s : State) (p : Word) : (s.setPc p).mem = s.mem := rfl
@[simp] theorem State.setPc_fb (s : State) (p : Word) : (s.setPc p).fb = s.fb := rfl
@[simp] theorem State.setPc_dt (s : State) (p : Word) : (s.setPc p).dt = s.dt := rfl
@[simp] theorem State.setPc_st (s : State) (p : Word) : (s.setPc p).st = s.st := rfl
@[simp] theorem State.setPc_keys (s : State) (p : Word) : (s.setPc p).keys = s.keys := rfl
@[simp] theorem State.setPc_wait (s : State) (p : Word) : (s.setPc p).wait = s.wait := rfl
@[simp] theorem State.setPc_waitx (s : State) (p : Word) : (s.setPc p).waitx = s.waitx := rfl
@[simp] theorem State.setPc_fault (s : State) (p : Word) : (s.setPc p).fault = s.fault := rfl
@[simp] theorem State.setPc_draws (s : State) (p : Word) : (s.setPc p).draws = s.draws := rfl
@[simp] theorem State.setPc_refreshes (s : State) (p : Word) : (s.setPc p).refreshes = s.refreshes := rfl

/-! ### advance -/

@[simp] theorem State.advance_v (s : State) : s.advance.v = s.v := rfl
@[simp] theorem State.advance_i (s : State) : s.advance.i = s.i := rfl
@[simp] theorem State.advance_sp (s : State) : s.advance.sp = s.sp := rfl
@[simp] theorem State.advance_stk (s : State) : s.advance.stk = s.stk := rfl
@[simp] theorem State.advance_mem (s : State) : s.advance.mem = s.mem := rfl
@[simp] theorem State.advance_fb (s : State) : s.advance.fb = s.fb := rfl
@[simp] theorem State.advance_dt (s : State) : s.advance.dt = s.dt := rfl
@[simp] theorem State.advance_st (s : State) : s.advance.st = s.st := rfl
@[simp] theorem State.advance_keys (s : State) : s.advance.keys = s.keys := rfl
@[simp] theorem State.advance_wait (s : State) : s.advance.wait = s.wait := rfl
@[simp] theorem State.advance_waitx (s : State) : s.advance.waitx = s.waitx := rfl
@[simp] theorem State.advance_fault (s : State) : s.advance.fault = s.fault := rfl
@[simp] theorem State.advance_draws (s : State) : s.advance.draws = s.draws := rfl
@[simp] theorem State.advance_refreshes (s : State) : s.advance.refreshes = s.refreshes := rfl

/-! ### skipIf -/

@[simp] theorem State.skipIf_v (s : State) (c : Bool) : (s.skipIf c).v = s.v := rfl
@[simp] theorem State.skipIf_i (s : State) (c : Bool) : (s.skipIf c).i = s.i := rfl
@[simp] theorem State.skipIf_sp (s : State) (c : Bool) : (s.skipIf c).sp = s.sp := rfl
@[simp] theorem State.skipIf_stk (s : State) (c : Bool) : (s.skipIf c).stk = s.stk := rfl
@[simp] theorem State.skipIf_mem (s : State) (c : Bool) : (s.skipIf c).mem = s.mem := rfl
@[simp] theorem State.skipIf_fb (s : State) (c : Bool) : (s.skipIf c).fb = s.fb := rfl
@[simp] theorem State.skipIf_dt (s : State) (c : Bool) : (s.skipIf c).dt = s.dt := rfl
@[simp] theorem State.skipIf_st (s : State) (c : Bool) : (s.skipIf c).st = s.st := rfl
@[simp] theorem State.skipIf_keys (s : State) (c : Bool) : (s.skipIf c).keys = s.keys := rfl
@[simp] theorem State.skipIf_wait (s : State) (c : Bool) : (s.skipIf c).wait = s.wait := rfl
@[simp] theorem State.skipIf_waitx (s : State) (c : Bool) : (s.skipIf c).waitx = s.waitx := rfl
@[simp] theorem State.skipIf_fault (s : State) (c : Bool) : (s.skipIf c).fault = s.fault := rfl
@[simp] theorem State.skipIf_draws (s : State) (c : Bool) : (s.skipIf c).draws = s.draws := rfl
@[simp] theorem State.skipIf_refreshes (s : State) (c : Bool) : (s.skipIf c).refreshes = s.refreshes := rfl

/-! ### setResultFlag -/

@[simp] theorem State.setResultFlag_pc (s : State) (x : Reg) (r : Byte × Bool) : (s.setResultFlag x r).pc = s.pc := rfl
@[simp] theorem State.setResultFlag_i (s : State) (x : Reg) (r : Byte × Bool) : (s.setResultFlag x r).i = s.i := rfl
@[simp] theorem State.setResultFlag_sp (s : State) (x : Reg) (r : Byte × Bool) : (s.setResultFlag x r).sp = s.sp := rfl
@[simp] theorem State.setResultFlag_stk (s : State) (x : Reg) (r : Byte × Bool) : (s.setResultFlag x r).stk = s.stk := rfl
@[simp] theorem State.setResultFlag_mem (s : State) (x : Reg) (r : Byte × Bool) : (s.setResultFlag x r).mem = s.mem := rfl
@[simp] theorem State.setResultFlag_fb (s : State) (x : Reg) (r : Byte × Bool) : (s.setResultFlag x r).fb = s.fb := rfl
@[simp] theorem State.setResultFlag_dt (s : State) (x : Reg) (r : Byte × Bool) : (s.setResultFlag x r).dt = s.dt := rfl
@[simp] theorem State.setResultFlag_st (s : State) (x : Reg) (r : Byte × Bool) : (s.setResultFlag x r).st = s.st := rfl
@[simp] theorem State.setResultFlag_keys (s : State) (x : Reg) (r : Byte × Bool) : (s.setResultFlag x r).keys = s.keys := rfl
@[simp] theorem State.setResultFlag_wait (s : State) (x : Reg) (r : Byte × Bool) : (s.setResultFlag x r).wait = s.wait := rfl
@[simp] theorem State.setResultFlag_waitx (s : State) (x : Reg) (r : Byte × Bool) : (s.setResultFlag x r).waitx = s.waitx := rfl
@[simp] theorem State.setResultFlag_fault (s : State) (x : Reg) (r : Byte × Bool) : (s.setResultFlag x r).fault = s.fault := rfl
@[simp] theorem State.setResultFlag_draws (s : State) (x : Reg) (r : Byte × Bool) : (s.setResultFlag x r).draws = s.draws := rfl
@[simp] theorem State.setResultFlag_refreshes (s : State) (x : Reg) (r : Byte × Bool) : (s.setResultFlag x r).refreshes = s.refreshes := rfl

/-! ### emitRefresh -/

@[simp] theorem State.emitRefresh_v (s : State) : s.emitRefresh.v = s.v := rfl
@[simp] theorem State.emitRefresh_pc (s : State) : s.emitRefresh.pc = s.pc := rfl
@[simp] theorem State.emitRefresh_i (s : State) : s.emitRefresh.i = s.i := rfl
@[simp] theorem State.emitRefresh_sp (s : State) : s.emitRefresh.sp = s.sp := rfl
@[simp] theorem State.emitRefresh_stk (s : State) : s.emitRefresh.stk = s.stk := rfl
@[simp] theorem State.emitRefresh_mem (s : State) : s.emitRefresh.mem = s.mem := rfl
@[simp] theorem State.emitRefresh_fb (s : State) : s.emitRefresh.fb = s.fb := rfl
@[simp] theorem State.emitRefresh_dt (s : State) : s.emitRefresh.dt = s.dt := rfl
@[simp] theorem State.emitRefresh_st (s : State) : s.emitRefresh.st = s.st := rfl
@[simp] theorem State.emitRefresh_keys (s : State) : s.emitRefresh.keys = s.keys := rfl
@[simp] theorem State.emitRefresh_wait (s : State) : s.emitRefresh.wait = s.wait := rfl
@[simp] theorem State.emitRefresh_waitx (s : State) : s.emitRefresh.waitx = s.waitx := rfl
@[simp] theorem State.emitRefresh_fault (s : State) : s.emitRefresh.fault = s.fault := rfl
@[simp] theorem State.emitRefresh_draws (s : State) : s.emitRefresh.draws = s.draws := rfl

/-! ### drawByte -/

@[simp] theorem State.drawByte_v (s : State) : s.drawByte.2.v = s.v := rfl
@[simp] theorem State.drawByte_pc (s : State) : s.drawByte.2.pc = s.pc := rfl
@[simp] theorem State.drawByte_i (s : State) : s.drawByte.2.i = s.i := rfl
@[simp] theorem State.drawByte_sp (s : State) : s.drawByte.2.sp = s.sp := rfl
@[simp] theorem State.drawByte_stk (s : State) : s.drawByte.2.stk = s.stk := rfl
@[simp] theorem State.drawByte_mem (s : State) : s.drawByte.2.mem = s.mem := rfl
@[simp] theorem State.drawByte_fb (s : State) : s.drawByte.2.fb = s.fb := rfl
@[simp] theorem State.drawByte_dt (s : State) : s.drawByte.2.dt = s.dt := rfl
@[simp] theorem State.drawByte_st (s : State) : s.drawByte.2.st = s.st := rfl
@[simp] theorem State.drawByte_keys (s : State) : s.drawByte.2.keys = s.keys := rfl
@[simp] theorem State.drawByte_wait (s : State) : s.drawByte.2.wait = s.wait := rfl
@[simp] theorem State.drawByte_waitx (s : State) : s.drawByte.2.waitx = s.waitx := rfl
@[simp] theorem State.drawByte_fault (s : State) : s.drawByte.2.fault = s.fault := rfl
@[simp] theorem State.drawByte_refreshes (s : State) : s.drawByte.2.refreshes = s.refreshes := rfl

/-! ### placeWord -/

@[simp] theorem State.placeWord_v (s : State) (w : Word) : (s.placeWord w).v = s.v := rfl
@[simp] theorem State.placeWord_i (s : State) (w : Word) : (s.placeWord w).i = s.i := rfl
@[simp] theorem State.placeWord_sp (s : State) (w : Word) : (s.placeWord w).sp = s.sp := rfl
@[simp] theorem State.placeWord_stk (s : State) (w : Word) : (s.placeWord w).stk = s.stk := rfl
@[simp] theorem State.placeWord_fb (s : State) (w : Word) : (s.placeWord w).fb = s.fb := rfl
@[simp] theorem State.placeWord_dt (s : State) (w : Word) : (s.placeWord w).dt = s.dt := rfl
@[simp] theorem State.placeWord_st (s : State) (w : Word) : (s.placeWord w).st = s.st := rfl
@[simp] theorem State.placeWord_keys (s : State) (w : Word) : (s.placeWord w).keys = s.keys := rfl
@[simp] theorem State.placeWord_waitx (s : State) (w : Word) : (s.placeWord w).waitx = s.waitx := rfl
@[simp] theorem State.placeWord_draws (s : State) (w : Word) : (s.placeWord w).draws = s.draws := rfl
@[simp] theorem State.placeWord_refreshes (s : State) (w : Word) : (s.placeWord w).refreshes = s.refreshes := rfl

/-! ### The fields the updates change -/

@[simp] theorem State.setPc_pc (s : State) (p : Word) : (s.setPc p).pc = p := rfl
@[simp] theorem State.advance_pc (s : State) : s.advance.pc = s.pc + 2 := rfl
@[simp] theorem State.emitRefresh_refreshes (s : State) : s.emitRefresh.refreshes = s.refreshes + 1 := rfl
@[simp] theorem State.drawByte_draws (s : State) : s.drawByte.2.draws = s.draws + 1 := rfl
@[simp] theorem State.placeWord_wait (s : State) (w : Word) : (s.placeWord w).wait = false := rfl
@[simp] theorem State.placeWord_fault (s : State) (w : Word) : (s.placeWord w).fault = none := rfl

/-- A skip goes 4 on where its condition holds, else 2 (R74). -/
theorem State.skipIf_pc (s : State) (c : Bool) : (s.skipIf c).pc = if c then s.pc + 4 else s.pc + 2 := by
  cases c <;> simp [State.skipIf, State.npc, BitVec.add_assoc]

/-! ### Registers -/

@[simp] theorem State.readV_setPc (s : State) (p : Word) (r : Reg) : (s.setPc p).readV r = s.readV r := rfl
@[simp] theorem State.readV_advance (s : State) (r : Reg) : s.advance.readV r = s.readV r := rfl
@[simp] theorem State.readV_skipIf (s : State) (c : Bool) (r : Reg) : (s.skipIf c).readV r = s.readV r := rfl
@[simp] theorem State.readV_emitRefresh (s : State) (r : Reg) : s.emitRefresh.readV r = s.readV r := rfl
@[simp] theorem State.readV_drawByte (s : State) (r : Reg) : s.drawByte.2.readV r = s.readV r := rfl

/-- A read of a register after a write of one (R10). -/
@[simp] theorem State.readV_setV (s : State) (x r : Reg) (b : Byte) :
    (s.setV x b).readV r = if r = x then b else s.readV r := by
  simp only [State.readV, State.setV, Vector.getElem_set, Fin.ext_iff, eq_comm]

/-- The flag is written last (R86 d): it is what `V[0xF]` holds, and every other register holds the
result if it is the destination, else what it held. -/
@[simp] theorem State.readV_setResultFlag (s : State) (x r : Reg) (p : Byte × Bool) :
    (s.setResultFlag x p).readV r =
      if r = flagReg then flagByte p.2 else if r = x then p.1 else s.readV r := by
  simp [State.setResultFlag]

/-! ### Pixels -/

@[simp] theorem State.pixel_setV (s : State) (x : Reg) (b : Byte) (px py : Nat) :
    (s.setV x b).pixel px py = s.pixel px py := rfl
@[simp] theorem State.pixel_setPc (s : State) (p : Word) (px py : Nat) : (s.setPc p).pixel px py = s.pixel px py := rfl
@[simp] theorem State.pixel_advance (s : State) (px py : Nat) : s.advance.pixel px py = s.pixel px py := rfl
@[simp] theorem State.pixel_skipIf (s : State) (c : Bool) (px py : Nat) : (s.skipIf c).pixel px py = s.pixel px py := rfl
@[simp] theorem State.pixel_emitRefresh (s : State) (px py : Nat) : s.emitRefresh.pixel px py = s.pixel px py := rfl
@[simp] theorem State.pixel_setResultFlag (s : State) (x : Reg) (r : Byte × Bool) (px py : Nat) :
    (s.setResultFlag x r).pixel px py = s.pixel px py := rfl

end Sys2Proof.Machine
end

