-- ==== Sys2Proof/Laws/Ops.lean ====
section
/-! SUPPORT. One lemma per shared operation that says what it can do. -/

namespace Sys2Proof

/-! ## The choice among keys -/

theorem Config.lowestKey_spec (m : Word) (fuel k : Nat) (hk : k + fuel ≤ 16)
    (h : ∃ j, k ≤ j ∧ j < k + fuel ∧ m.getLsbD j = true) :
    m.getLsbD (Config.lowestKey m fuel k).val = true := by
  induction fuel generalizing k with
  | zero => obtain ⟨j, h1, h2, _⟩ := h; omega
  | succ fuel ih =>
    unfold Config.lowestKey
    split
    · next hb =>
      have hv : (Fin.ofNat 16 k).val = k := Nat.mod_eq_of_lt (by omega)
      rwa [hv]
    · next hb =>
      obtain ⟨j, h1, h2, h3⟩ := h
      have hj : k ≠ j := by rintro rfl; exact hb h3
      exact ih (k + 1) (by omega) ⟨j, by omega, by omega, h3⟩

/-- `KEY_PICK` answers a key that is down (R5, R108; decision D22). -/
theorem Config.keyPick_down (m : Word) (h : m ≠ 0) : m.getLsbD (Config.keyPick m).val = true := by
  unfold Config.keyPick
  split
  · next hc => exact hc
  · refine Config.lowestKey_spec m 16 0 (by omega) ?_
    by_contra hn
    refine h (BitVec.eq_of_getLsbD_eq fun j hj => ?_)
    cases hb : m.getLsbD j with
    | true => exact absurd ⟨j, by omega, by omega, hb⟩ hn
    | false => simp

namespace Machine

/-! ## The stack (R14) -/

/-- A push with room: the entry, the depth, and nothing else (R14). -/
theorem State.push_some {s : State} (w : Word) (h : s.sp.val < 16) :
    s.push w = some { s with stk := s.stk.set s.sp.val w, sp := ⟨s.sp.val + 1, by omega⟩ } := by
  simp [State.push, h]

/-- A push answers nothing exactly on a full stack (R14). -/
theorem State.push_none {s : State} (w : Word) : s.push w = none ↔ s.sp.val = 16 := by
  unfold State.push
  split <;> simp <;> omega

/-- A pop of a stack that is not empty: the top entry, the depth, and nothing else (R14). -/
theorem State.pop_some {s : State} (h : s.sp.val ≠ 0) :
    s.pop = some (s.stk[s.sp.val - 1]'(by omega), { s with sp := ⟨s.sp.val - 1, by omega⟩ }) := by
  simp [State.pop, h]

/-- A pop answers nothing exactly on an empty stack (R14). -/
theorem State.pop_none {s : State} : s.pop = none ↔ s.sp.val = 0 := by
  unfold State.pop
  split <;> simp_all

/-! ## Register blocks (R114, R115) -/

/-- Every register after a block is loaded: those of the block take the bytes, the others keep theirs. -/
theorem loadRegs_get (bs : List Byte) (v : Vector Byte 16) (k : Nat) (r : Reg) :
    (loadRegs v k bs)[r.val] = if k ≤ r.val ∧ r.val < k + bs.length then bs.getD (r.val - k) 0 else v[r.val] := by
  induction bs generalizing v k with
  | nil => simp [loadRegs]
  | cons b bs ih =>
    rw [loadRegs, ih, Vector.getElem_setIfInBounds]
    by_cases h1 : k = r.val
    · subst h1
      simp
    · by_cases h2 : k + 1 ≤ r.val ∧ r.val < k + 1 + bs.length
      · obtain ⟨d, hd⟩ : ∃ d, r.val = k + 1 + d := ⟨r.val - (k + 1), by omega⟩
        rw [if_pos h2, if_pos (by simp; omega), show r.val - (k + 1) = d by omega,
          show r.val - k = d + 1 by omega, List.getD_cons_succ]
      · rw [if_neg h2, if_neg h1, if_neg (by simp; omega)]

@[simp] theorem State.length_regsUpTo (s : State) (x : Reg) : (s.regsUpTo x).length = x.val + 1 := by
  simp [State.regsUpTo]

/-- The `k`-th register of the block `V[0..x]`. -/
theorem State.getD_regsUpTo (s : State) (x r : Reg) (h : r ≤ x) : (s.regsUpTo x).getD r.val 0 = s.readV r := by
  have hr : r.val < x.val + 1 := Nat.lt_succ_of_le h
  simp [State.regsUpTo, State.readV, List.getD, hr]

/-! ## Operand checks -/

/-- The rectangle check as R96 writes it: columns to 63, rows to 31. -/
theorem rectFits_iff (vx vy n : Nat) :
    rectFits vx vy n = true ↔ n = 0 ∨ (vx + 7 ≤ 63 ∧ vy + n - 1 ≤ 31) := by
  simp [rectFits]

@[simp] theorem length_bcdDigits (b : Byte) : (bcdDigits b).length = 3 := rfl

theorem toNat_addrWord (a : Addr12) : (addrWord a).toNat = a.toNat := by
  simp [addrWord]
  omega

theorem toNat_byteWord (b : Byte) : (byteWord b).toNat = b.toNat := by
  simp [byteWord]
  omega

theorem toNat_keyByte (k : Nibble) : (keyByte k).toNat = k.val := by
  have := k.isLt
  simp [keyByte, nibbleBits]
  omega

/-! ## Fetch (R31, R32) -/

theorem State.fetchWord_some {s : State} (h : s.pc.toNat ≤ 0xFFE) :
    s.fetchWord = some (joinWord (s.mem.read s.pc.toNat) (s.mem.read (s.pc.toNat + 1))) := by
  simp [State.fetchWord, h]

theorem State.fetchWord_none {s : State} : s.fetchWord = none ↔ 0xFFE < s.pc.toNat := by
  unfold State.fetchWord
  split <;> simp <;> omega

/-- A fetch that answers a word was made at a `pc` of at most 0xFFE (R32). -/
theorem State.fetchWord_le {s : State} {w : Word} (h : s.fetchWord = some w) : s.pc.toNat ≤ 0xFFE := by
  by_contra hn
  rw [State.fetchWord_none.mpr (by omega)] at h
  exact absurd h (by simp)

theorem State.placeWord_pc_le (s : State) (w : Word) : (s.placeWord w).pc.toNat ≤ 0xFFE := by
  unfold State.placeWord
  dsimp only
  split
  · assumption
  · decide

/-- A word placed where the next step fetches is the word it fetches. -/
theorem State.fetchWord_placeWord (s : State) (w : Word) : (s.placeWord w).fetchWord = some w := by
  have hm : (s.placeWord w).mem = s.mem.writeBytes (s.placeWord w).pc.toNat (wordBytes w) := rfl
  rw [State.fetchWord_some (State.placeWord_pc_le s w), hm, Memory.read_writeBytes, Memory.read_writeBytes,
    if_pos (by simp [wordBytes]), if_pos (by simp [wordBytes])]
  simp [wordBytes]

/-! ## Wait for key (R108) -/

/-- With no key down a `WaitStep` changes nothing at all (R108). -/
theorem waitStep_idle {s : State} (h : s.keys = 0) : waitStep s = s := if_pos h

/-- With a key down a `WaitStep` loads its number and ends the wait (R108). -/
theorem waitStep_load {s : State} (h : s.keys ≠ 0) :
    waitStep s = { s.setV s.waitx (keyByte (Config.keyPick s.keys)) with wait := false } := if_neg h

/-! ## Faults (R124) -/

/-- A raised fault sets the latch and nothing else (R124). -/
theorem raise_next {f : FaultRecord} {s t : State} (h : raise f s = .next t) : t = { s with fault := some f } := by
  cases h
  rfl

/-- A key skip with a key of that number: the skip (R102). -/
theorem keySkip_key {want : Bool} {x : Reg} {s : State} (h : (s.readV x).toNat ≤ 15) :
    keySkip want x s = .next (s.skipIf (s.keyDown (s.readV x).toNat == want)) := if_neg (by omega)

/-- A key skip with no key of that number: the fault (R102). -/
theorem keySkip_noKey {want : Bool} {x : Reg} {s : State} (h : 15 < (s.readV x).toNat) :
    keySkip want x s = raise (.outOfRange .key) s := if_pos h

/-! ## Timers (R131) -/

theorem tickDown_toNat (b : Byte) : (tickDown b).toNat = b.toNat - 1 := by
  unfold tickDown
  split
  · next h => subst h; rfl
  · next h =>
    have hb : b.toNat ≠ 0 := fun c => h (BitVec.eq_of_toNat_eq c)
    rw [BitVec.toNat_sub_of_le (by rw [BitVec.le_def]; simp; omega)]
    rfl

end Machine

end Sys2Proof
end

