-- ==== Sys2Proof/Laws/PerInstr.lean ====
section
/-! SUPPORT. Statements for all instructions, one lemma per constructor. Family FixedBits: the word an
instruction is encoded as has the fixed bits of its row of the opcode map, and its operands pass the
checks (spec/30_encoding.md R50). -/

namespace Sys2Proof.Laws.FixedBits

/-- The encoded word matches the instruction's row of R50, and the operands fit their fields. -/
def Statement (i : Instr) : Prop := encode i &&& i.row.mask = i.row.pattern ∧ i.wf = true

theorem cls : Statement .cls :=
  ⟨by decide, Instr.wf_all _⟩

theorem ret : Statement .ret :=
  ⟨by decide, Instr.wf_all _⟩

theorem jp (nnn : Addr12) : Statement (.jp nnn) :=
  ⟨(mask_op _ 0x1#4).mpr (by simp [encode]), Instr.wf_all _⟩

theorem call (nnn : Addr12) : Statement (.call nnn) :=
  ⟨(mask_op _ 0x2#4).mpr (by simp [encode]), Instr.wf_all _⟩

theorem sei (x : Reg) (nn : Byte) : Statement (.sei x nn) :=
  ⟨(mask_op _ 0x3#4).mpr (by simp [encode]), Instr.wf_all _⟩

theorem snei (x : Reg) (nn : Byte) : Statement (.snei x nn) :=
  ⟨(mask_op _ 0x4#4).mpr (by simp [encode]), Instr.wf_all _⟩

theorem ser (x : Reg) (y : Reg) (g : Nibble) : Statement (.ser x y g) :=
  ⟨(mask_op _ 0x5#4).mpr (by simp [encode]), Instr.wf_all _⟩

theorem ldi (x : Reg) (nn : Byte) : Statement (.ldi x nn) :=
  ⟨(mask_op _ 0x6#4).mpr (by simp [encode]), Instr.wf_all _⟩

theorem addi (x : Reg) (nn : Byte) : Statement (.addi x nn) :=
  ⟨(mask_op _ 0x7#4).mpr (by simp [encode]), Instr.wf_all _⟩

theorem mov (x : Reg) (y : Reg) : Statement (.mov x y) :=
  ⟨(mask_op_n _ 0x8#4 0x0).mpr (by simp [encode]), Instr.wf_all _⟩

theorem or (x : Reg) (y : Reg) : Statement (.or x y) :=
  ⟨(mask_op_n _ 0x8#4 0x1).mpr (by simp [encode]), Instr.wf_all _⟩

theorem and (x : Reg) (y : Reg) : Statement (.and x y) :=
  ⟨(mask_op_n _ 0x8#4 0x2).mpr (by simp [encode]), Instr.wf_all _⟩

theorem xor (x : Reg) (y : Reg) : Statement (.xor x y) :=
  ⟨(mask_op_n _ 0x8#4 0x3).mpr (by simp [encode]), Instr.wf_all _⟩

theorem add (x : Reg) (y : Reg) : Statement (.add x y) :=
  ⟨(mask_op_n _ 0x8#4 0x4).mpr (by simp [encode]), Instr.wf_all _⟩

theorem sub (x : Reg) (y : Reg) : Statement (.sub x y) :=
  ⟨(mask_op_n _ 0x8#4 0x5).mpr (by simp [encode]), Instr.wf_all _⟩

theorem shr (x : Reg) (g : Nibble) : Statement (.shr x g) :=
  ⟨(mask_op_n _ 0x8#4 0x6).mpr (by simp [encode]), Instr.wf_all _⟩

theorem subn (x : Reg) (y : Reg) : Statement (.subn x y) :=
  ⟨(mask_op_n _ 0x8#4 0x7).mpr (by simp [encode]), Instr.wf_all _⟩

theorem shl (x : Reg) (g : Nibble) : Statement (.shl x g) :=
  ⟨(mask_op_n _ 0x8#4 0xE).mpr (by simp [encode]), Instr.wf_all _⟩

theorem sner (x : Reg) (y : Reg) (g : Nibble) : Statement (.sner x y g) :=
  ⟨(mask_op _ 0x9#4).mpr (by simp [encode]), Instr.wf_all _⟩

theorem lda (nnn : Addr12) : Statement (.lda nnn) :=
  ⟨(mask_op _ 0xA#4).mpr (by simp [encode]), Instr.wf_all _⟩

theorem jpv0 (nnn : Addr12) : Statement (.jpv0 nnn) :=
  ⟨(mask_op _ 0xB#4).mpr (by simp [encode]), Instr.wf_all _⟩

theorem rnd (x : Reg) (nn : Byte) : Statement (.rnd x nn) :=
  ⟨(mask_op _ 0xC#4).mpr (by simp [encode]), Instr.wf_all _⟩

theorem drw (x : Reg) (y : Reg) (n : Nibble) : Statement (.drw x y n) :=
  ⟨(mask_op _ 0xD#4).mpr (by simp [encode]), Instr.wf_all _⟩

theorem skp (x : Reg) : Statement (.skp x) :=
  ⟨(mask_op_nn _ 0xE#4 0x9E#8).mpr (by simp [encode]), Instr.wf_all _⟩

theorem sknp (x : Reg) : Statement (.sknp x) :=
  ⟨(mask_op_nn _ 0xE#4 0xA1#8).mpr (by simp [encode]), Instr.wf_all _⟩

theorem lddt (x : Reg) : Statement (.lddt x) :=
  ⟨(mask_op_nn _ 0xF#4 0x07#8).mpr (by simp [encode]), Instr.wf_all _⟩

theorem wkey (x : Reg) : Statement (.wkey x) :=
  ⟨(mask_op_nn _ 0xF#4 0x0A#8).mpr (by simp [encode]), Instr.wf_all _⟩

theorem stdt (x : Reg) : Statement (.stdt x) :=
  ⟨(mask_op_nn _ 0xF#4 0x15#8).mpr (by simp [encode]), Instr.wf_all _⟩

theorem stst (x : Reg) : Statement (.stst x) :=
  ⟨(mask_op_nn _ 0xF#4 0x18#8).mpr (by simp [encode]), Instr.wf_all _⟩

theorem adda (x : Reg) : Statement (.adda x) :=
  ⟨(mask_op_nn _ 0xF#4 0x1E#8).mpr (by simp [encode]), Instr.wf_all _⟩

theorem font (x : Reg) : Statement (.font x) :=
  ⟨(mask_op_nn _ 0xF#4 0x29#8).mpr (by simp [encode]), Instr.wf_all _⟩

theorem bcd (x : Reg) : Statement (.bcd x) :=
  ⟨(mask_op_nn _ 0xF#4 0x33#8).mpr (by simp [encode]), Instr.wf_all _⟩

theorem stm (x : Reg) : Statement (.stm x) :=
  ⟨(mask_op_nn _ 0xF#4 0x55#8).mpr (by simp [encode]), Instr.wf_all _⟩

theorem ldm (x : Reg) : Statement (.ldm x) :=
  ⟨(mask_op_nn _ 0xF#4 0x65#8).mpr (by simp [encode]), Instr.wf_all _⟩

end Sys2Proof.Laws.FixedBits
end

