-- ==== Sys2Proof/Laws/Step.lean ====
section
/-! SUPPORT. What one step of the core can be (spec/30_encoding.md R46, 60_exceptions.md R123), and
that reset memory and every reachable display need no more than the step's own cases. -/

namespace Sys2Proof.Machine

/-- Everything a step can do, in the order of R123: nothing while Faulted, the deferred load while
waiting, a fetch fault, a decode fault, or the decoded instruction. -/
theorem step_cases (s : State) :
    (s.fault ≠ none ∧ step s = .next s) ∨
    (s.Awaiting ∧ step s = .next (waitStep s)) ∨
    (s.Running ∧ s.fetchWord = none ∧ step s = raise (.outOfRange .fetch) s) ∨
    (∃ w e, s.Running ∧ s.fetchWord = some w ∧ decodeWord w = .error e ∧ step s = raise (.decodeError w) s) ∨
    (∃ w i, s.Running ∧ s.fetchWord = some w ∧ decodeWord w = .ok i ∧ step s = exec i s) := by
  unfold step cycle
  cases hf : s.fault with
  | some f => left; simp
  | none =>
    right
    cases hw : s.wait with
    | true => left; simp [State.Awaiting, hf, hw]
    | false =>
      right
      have hr : s.Running := ⟨hf, hw⟩
      unfold fetchDecodeExecute
      cases hfw : s.fetchWord with
      | none => left; simp [hr]
      | some w =>
        right
        cases hd : decodeWord w with
        | error e => left; exact ⟨w, e, hr, rfl, hd, by simp [hd]⟩
        | ok i => right; exact ⟨w, i, hr, rfl, hd, by simp [hd]⟩

/-- While Running, a step is fetch, decode, execute (R46). -/
theorem step_running {s : State} (h : s.Running) : step s = fetchDecodeExecute s := by
  simp [step, cycle, h.1, h.2]

/-- What a fetched legal word does: the instruction it decodes to (R46). -/
theorem step_decoded {s : State} {w : Word} {i : Instr} (h : s.Running) (hw : s.fetchWord = some w)
    (hd : decodeWord w = .ok i) : step s = exec i s := by
  simp [step_running h, fetchDecodeExecute, hw, hd]

/-- The decoder on the two bytes of a word is the decoder on the word (R31). -/
theorem decodeBytes_wordBytes (w : Word) (i : Instr) :
    decodeBytes (wordBytes w) = .ok (i, []) ↔ decodeWord w = .ok i := by
  simp only [decodeBytes, wordBytes, joinWord_bytes]
  split <;> simp_all

end Sys2Proof.Machine
end

