-- ==== Sys2Proof/Tests/Slice0.lean ====
section
/-! SUPPORT. Tests of the model, their expected results from spec/95_test_vectors.md and the examples
of the rules, and a witness for the hypotheses of every statement that has any. -/

namespace Sys2Proof.Tests

open Sys2Proof Sys2Proof.Machine

/-- The vector base of spec/95_test_vectors.md: the state after reset with one word at 0x200. -/
def base (w : Word) : State := { State.reset with mem := Memory.writeBytes [] 0x200 (wordBytes w) }

/-- Two registers of a state set. -/
def regs2 (s : State) (a : Reg) (va : Byte) (b : Reg) (vb : Byte) : State := (s.setV a va).setV b vb

/-- One step answers a next state that meets `p`. -/
def steps (s : State) (p : State → Bool) : Bool :=
  match step s with
  | .next t => p t
  | _ => false

/-- One step raises the fault, and changes nothing else. -/
def stepFaults (s : State) (f : FaultRecord) : Bool := steps s (fun t => t == { s with fault := some f })

/-! ## WellFormed: every check refuses a number that does not fit -/

theorem test_wf_reg_refuses : WellFormed.regOk 15 = true ∧ WellFormed.regOk 16 = false := by decide
theorem test_wf_nibble_refuses : WellFormed.nibbleOk 15 = true ∧ WellFormed.nibbleOk 16 = false := by decide
theorem test_wf_byte_refuses : WellFormed.byteOk 255 = true ∧ WellFormed.byteOk 256 = false := by decide
theorem test_wf_addr_refuses : WellFormed.addrOk 4095 = true ∧ WellFormed.addrOk 4096 = false := by decide
theorem test_wf_instr : (Instr.drw 15 15 15).wf = true ∧ (Instr.jp 0xFFF).wf = true := by decide

/-! ## Decoding: every constructor from a word written out from its row of R50 -/

theorem test_decode_cls : decodeWord 0b0000000011100000 = .ok .cls := by rfl
theorem test_decode_ret : decodeWord 0b0000000011101110 = .ok .ret := by rfl
theorem test_decode_jp : decodeWord 0b0001101010111100 = .ok (.jp 0xABC) := by rfl
theorem test_decode_call : decodeWord 0b0010001100000000 = .ok (.call 0x300) := by rfl
theorem test_decode_sei : decodeWord 0b0011101000000101 = .ok (.sei 0xA 0x05) := by rfl
theorem test_decode_snei : decodeWord 0b0100101000000101 = .ok (.snei 0xA 0x05) := by rfl
theorem test_decode_ser : decodeWord 0b0101000100101111 = .ok (.ser 1 2 0xF) := by rfl
theorem test_decode_ldi : decodeWord 0b0110101000000010 = .ok (.ldi 0xA 0x02) := by rfl
theorem test_decode_addi : decodeWord 0b0111101000000011 = .ok (.addi 0xA 0x03) := by rfl
theorem test_decode_mov : decodeWord 0b1000000100100000 = .ok (.mov 1 2) := by rfl
theorem test_decode_or : decodeWord 0b1000000100100001 = .ok (.or 1 2) := by rfl
theorem test_decode_and : decodeWord 0b1000000100100010 = .ok (.and 1 2) := by rfl
theorem test_decode_xor : decodeWord 0b1000000100100011 = .ok (.xor 1 2) := by rfl
theorem test_decode_add : decodeWord 0b1000000100100100 = .ok (.add 1 2) := by rfl
theorem test_decode_sub : decodeWord 0b1000000100100101 = .ok (.sub 1 2) := by rfl
theorem test_decode_shr : decodeWord 0b1000001100010110 = .ok (.shr 3 1) := by rfl
theorem test_decode_subn : decodeWord 0b1000000100100111 = .ok (.subn 1 2) := by rfl
theorem test_decode_shl : decodeWord 0b1000001100011110 = .ok (.shl 3 1) := by rfl
theorem test_decode_sner : decodeWord 0b1001000100100111 = .ok (.sner 1 2 7) := by rfl
theorem test_decode_lda : decodeWord 0b1010000100100011 = .ok (.lda 0x123) := by rfl
theorem test_decode_jpv0 : decodeWord 0b1011111111111110 = .ok (.jpv0 0xFFE) := by rfl
theorem test_decode_rnd : decodeWord 0b1100001100001111 = .ok (.rnd 3 0x0F) := by rfl
theorem test_decode_drw : decodeWord 0b1101000000010010 = .ok (.drw 0 1 2) := by rfl
theorem test_decode_skp : decodeWord 0b1110001110011110 = .ok (.skp 3) := by rfl
theorem test_decode_sknp : decodeWord 0b1110001110100001 = .ok (.sknp 3) := by rfl
theorem test_decode_lddt : decodeWord 0b1111001000000111 = .ok (.lddt 2) := by rfl
theorem test_decode_wkey : decodeWord 0b1111001100001010 = .ok (.wkey 3) := by rfl
theorem test_decode_stdt : decodeWord 0b1111001000010101 = .ok (.stdt 2) := by rfl
theorem test_decode_stst : decodeWord 0b1111010000011000 = .ok (.stst 4) := by rfl
theorem test_decode_adda : decodeWord 0b1111001000011110 = .ok (.adda 2) := by rfl
theorem test_decode_font : decodeWord 0b1111000100101001 = .ok (.font 1) := by rfl
theorem test_decode_bcd : decodeWord 0b1111000000110011 = .ok (.bcd 0) := by rfl
theorem test_decode_stm : decodeWord 0b1111001001010101 = .ok (.stm 2) := by rfl
theorem test_decode_ldm : decodeWord 0b1111001001100101 = .ok (.ldm 2) := by rfl

/-- The illegal words of the vectors A5 to A8, C35 to C37, K8 to K10, F25 to F28. -/
theorem test_decode_illegal :
    [0x0000, 0x00E1, 0x00FE, 0x0123, 0x8128, 0x812F, 0x8009, 0xE39F, 0xE000, 0xE3A0, 0xF000, 0xF166,
      0xF075, 0xF1FF].all (fun w => (decodeWord w).toOption.isNone) = true := by decide

/-- A byte list too short holds no instruction; a longer one leaves the rest. -/
theorem test_decode_bytes : decodeBytes [0x6A] = .error .truncated ∧
    decodeBytes [0x6A, 0x02, 0x7A] = .ok (.ldi 0xA 0x02, [0x7A]) := ⟨rfl, rfl⟩

/-! ## One step of each instruction (the vectors of spec/95_test_vectors.md) -/

-- A1
theorem test_cls : steps { base 0x00E0 with fb := (Display.blank.set 0 0 true).set 63 31 true }
    (fun t => t.fb == Display.blank && t.pc == 0x202 && t.refreshes == 0) = true := by decide
-- A2
theorem test_ret : steps { base 0x00EE with sp := 1, stk := State.reset.stk.set 0 0x206 }
    (fun t => t.pc == 0x206 && t.sp == 0 && t.stk[0] == 0x206) = true := by decide
-- A4
theorem test_ret_empty : stepFaults (base 0x00EE) .stackUnderflow = true := by decide
-- A5
theorem test_zero_word : stepFaults State.reset (.decodeError 0x0000) = true := by decide
-- A9
theorem test_jp : steps (base 0x1ABC) (fun t => t.pc == 0xABC) = true := by decide
-- A12, A13 (the last free entry)
theorem test_call : steps { base 0x2300 with sp := 15 }
    (fun t => t.stk[15] == 0x202 && t.sp == 16 && t.pc == 0x300) = true := by decide
-- A14
theorem test_call_full : stepFaults { base 0x2300 with sp := 16 } .stackOverflow = true := by decide
-- B1, B2
theorem test_sei : steps ((base 0x3A05).setV 0xA 5) (fun t => t.pc == 0x204) = true ∧
    steps ((base 0x3A05).setV 0xA 6) (fun t => t.pc == 0x202) = true := by decide
-- B3, B4
theorem test_snei : steps ((base 0x4A05).setV 0xA 5) (fun t => t.pc == 0x202) = true ∧
    steps ((base 0x4A05).setV 0xA 6) (fun t => t.pc == 0x204) = true := by decide
-- B6, B7
theorem test_ser : steps (regs2 (base 0x5120) 1 7 2 8) (fun t => t.pc == 0x202) = true ∧
    steps (regs2 (base 0x512F) 1 7 2 7) (fun t => t.pc == 0x204) = true := by decide
-- B9, B11
theorem test_sner : steps (regs2 (base 0x9120) 1 7 2 7) (fun t => t.pc == 0x202) = true ∧
    steps (regs2 (base 0x9127) 1 7 2 8) (fun t => t.pc == 0x204) = true := by decide
-- C1
theorem test_ldi : steps (base 0x6A02) (fun t => t.readV 0xA == 2 && t.pc == 0x202) = true := by decide
-- C4, C5
theorem test_addi : steps (regs2 (base 0x7001) 0 0xFF 15 0) (fun t => t.readV 0 == 0 && t.readV 15 == 0) = true ∧
    steps ((base 0x7FFF).setV 15 1) (fun t => t.readV 15 == 0) = true := by decide
-- C7
theorem test_mov : steps (regs2 (base 0x8120) 1 1 2 0x77) (fun t => t.readV 1 == 0x77 && t.readV 2 == 0x77) = true := by decide
-- C8
theorem test_or : steps ((regs2 (base 0x8121) 1 0xF0 2 0x3C).setV 15 1)
    (fun t => t.readV 1 == 0xFC && t.readV 15 == 1) = true := by decide
-- C9
theorem test_and : steps ((regs2 (base 0x8122) 1 0xF0 2 0x3C).setV 15 1)
    (fun t => t.readV 1 == 0x30 && t.readV 15 == 1) = true := by decide
-- C10
theorem test_xor : steps ((regs2 (base 0x8123) 1 0xF0 2 0x3C).setV 15 1)
    (fun t => t.readV 1 == 0xCC && t.readV 15 == 1) = true := by decide
-- C12, C14
theorem test_add : steps (regs2 (base 0x8124) 1 0xC8 2 0x64) (fun t => t.readV 1 == 0x2C && t.readV 15 == 1) = true ∧
    steps (regs2 (base 0x8124) 1 0x80 2 0x7F) (fun t => t.readV 1 == 0xFF && t.readV 15 == 0) = true := by decide
-- C16, C17
theorem test_add_flag_register : steps (regs2 (base 0x8F14) 15 0xFF 1 2) (fun t => t.readV 15 == 1) = true ∧
    steps (regs2 (base 0x81F4) 1 0x10 15 1) (fun t => t.readV 1 == 0x11 && t.readV 15 == 0) = true := by decide
-- C19, C20
theorem test_sub : steps (regs2 (base 0x8125) 1 0x0A 2 0x0C) (fun t => t.readV 1 == 0xFE && t.readV 15 == 0) = true ∧
    steps ((regs2 (base 0x8125) 1 5 2 5).setV 15 1) (fun t => t.readV 1 == 0 && t.readV 15 == 0) = true := by decide
-- C23
theorem test_sub_flag_register : steps (regs2 (base 0x8F15) 15 9 1 3) (fun t => t.readV 15 == 1) = true := by decide
-- C28
theorem test_shr : steps ((regs2 (base 0x8316) 3 0xFE 1 1).setV 15 1)
    (fun t => t.readV 3 == 0x7F && t.readV 15 == 0 && t.readV 1 == 1) = true := by decide
-- C24, C25
theorem test_subn : steps (regs2 (base 0x8127) 1 0x0A 2 0x0C) (fun t => t.readV 1 == 2 && t.readV 15 == 1) = true ∧
    steps ((regs2 (base 0x8127) 1 5 2 5).setV 15 1) (fun t => t.readV 1 == 0 && t.readV 15 == 0) = true := by decide
-- C31, C32
theorem test_shl : steps ((base 0x830E).setV 3 0x81) (fun t => t.readV 3 == 2 && t.readV 15 == 1) = true ∧
    steps ((regs2 (base 0x831E) 3 0x40 1 0xFF).setV 15 1) (fun t => t.readV 3 == 0x80 && t.readV 15 == 0) = true := by decide
-- D2
theorem test_lda : steps { base 0xAFFF with i := 0xFFFF } (fun t => t.i == 0x0FFF) = true := by decide
-- D4
theorem test_jpv0 : steps ((base 0xBFFF).setV 0 0xFF) (fun t => t.pc == 0x10FE) = true := by decide
-- D7
theorem test_rnd_masked : steps ((base 0xC300).setV 3 0x55) (fun t => t.draws == 1 && t.pc == 0x202) = true := by decide
-- K1, K2
theorem test_skp : steps { (base 0xE39E).setV 3 5 with keys := 0x0020 } (fun t => t.pc == 0x204) = true ∧
    steps { (base 0xE39E).setV 3 5 with keys := 0xFFDF } (fun t => t.pc == 0x202) = true := by decide
-- K6
theorem test_skp_no_such_key : stepFaults { (base 0xE39E).setV 3 0x10 with keys := 0xFFFF } (.outOfRange .key) = true := by decide
-- K3, K4
theorem test_sknp : steps { (base 0xE3A1).setV 3 5 with keys := 0x0020 } (fun t => t.pc == 0x202) = true ∧
    steps ((base 0xE3A1).setV 3 5) (fun t => t.pc == 0x204) = true := by decide
-- F1
theorem test_lddt : steps { base 0xF207 with dt := 0x3C } (fun t => t.readV 2 == 0x3C && t.dt == 0x3C) = true := by decide
-- F5
theorem test_wkey : steps { base 0xF30A with keys := 0x0020 }
    (fun t => t.wait && t.waitx == 3 && t.pc == 0x202 && t.readV 3 == 0) = true := by decide
-- F3
theorem test_stdt : steps ((base 0xF215).setV 2 0x3C) (fun t => t.dt == 0x3C && t.st == 0) = true := by decide
-- F4
theorem test_stst : steps ((base 0xF418).setV 4 5) (fun t => t.st == 5 && t.dt == 0) = true := by decide
-- F7, F8
theorem test_adda : steps { (base 0xF21E).setV 2 1 with i := 0x0FFF } (fun t => t.i == 0x1000 && t.readV 15 == 0) = true ∧
    steps { (base 0xF21E).setV 2 1 with i := 0xFFFF } (fun t => t.i == 0) = true := by decide
-- F10, F11
theorem test_font : steps ((base 0xF129).setV 1 0x1A) (fun t => t.i == 0x82) = true ∧
    steps ((base 0xF129).setV 1 0xFF) (fun t => t.i == 0x4FB) = true := by decide
-- F12
theorem test_bcd : steps { (base 0xF033).setV 0 0xEA with i := 0x300 }
    (fun t => t.mem.readBytes 0x300 4 == [2, 3, 4, 0] && t.i == 0x300) = true := by decide
-- F14
theorem test_bcd_edge : stepFaults { (base 0xF033).setV 0 7 with i := 0x0FFE } (.outOfRange .mem) = true := by decide
-- F17
theorem test_stm : steps { (base 0xF055).setV 0 0xAB with i := 0x0FFF } (fun t => t.mem.read 0xFFF == 0xAB) = true := by decide
-- F18
theorem test_stm_edge : stepFaults { (base 0xF155).setV 0 0xAB with i := 0x0FFF } (.outOfRange .mem) = true := by decide
-- F21
theorem test_ldm : steps { (base 0xF265).setV 3 0x99 with
      i := 0x300, mem := (base 0xF265).mem.writeBytes 0x300 [2, 3, 4, 5] }
    (fun t => t.v.toList.take 4 == [2, 3, 4, 0x99] && t.i == 0x300) = true := by decide
-- F24
theorem test_ldm_edge : stepFaults { base 0xF065 with i := 0x1000 } (.outOfRange .mem) = true := by decide

/-- Where the vectors G draw: F0 90 at 0x300, and `V[0]`, `V[1]` the corner. -/
def drawing (w : Word) (vx vy : Byte) : State :=
  { regs2 (base w) 0 vx 1 vy with mem := (base w).mem.writeBytes 0x300 [0xF0, 0x90], i := 0x300 }

/-- The lit pixels of one row, left to right. -/
def litInRow (s : State) (py : Nat) : List Nat := (List.range 64).filter (fun px => s.pixel px py)

set_option maxRecDepth 4000 in
-- G1
theorem test_drw : steps (drawing 0xD012 4 2)
    (fun t => litInRow t 2 == [4, 5, 6, 7] && litInRow t 3 == [4, 7] && t.readV 15 == 0 && t.refreshes == 1) = true := by
  decide
set_option maxRecDepth 4000 in
-- G3
theorem test_drw_collides : steps { drawing 0xD012 4 2 with fb := (Display.blank.set 7 3 true).set 8 3 true }
    (fun t => litInRow t 3 == [4, 8] && t.readV 15 == 1) = true := by decide

/-! ## Fetch, the wait, a stopped core, the external agents -/

-- S2
theorem test_fetch_last : steps { State.reset with pc := 0xFFE, mem := Memory.writeBytes [] 0xFFE [0x60, 0x01] }
    (fun t => t.readV 0 == 1 && t.pc == 0x1000) = true := by decide
-- S4
theorem test_fetch_beyond : stepFaults { State.reset with pc := 0xFFF } (.outOfRange .fetch) = true := by decide
-- S5
theorem test_fetch_odd : steps { State.reset with pc := 0x201, mem := [(0x201, 0x6A), (0x202, 0x02)] }
    (fun t => t.readV 0xA == 2 && t.pc == 0x203) = true := by decide
-- S11
theorem test_faulted_first : steps { State.reset with fault := some .stackOverflow, wait := true, keys := 1 }
    (fun t => t == { State.reset with fault := some .stackOverflow, wait := true, keys := 1 }) = true := by decide
-- S7
theorem test_wait_held : steps { State.reset with wait := true, waitx := 3, pc := 0x202 }
    (fun t => t == { State.reset with wait := true, waitx := 3, pc := 0x202 }) = true := by decide
-- X1, X2, X3
theorem test_tick : (timerTick { State.reset with dt := 2 }).dt = 1 ∧ (timerTick { State.reset with st := 1 }).st = 0 ∧
    timerTick State.reset = State.reset := by decide
-- X8
theorem test_load : (hostLoad [0x12, 0x00] { State.reset with mem := [(0x100, 0xFF)], dt := 9, pc := 0x300 }).1 =
    { State.reset with mem := [(0x200, 0x12)], dt := 9 } := by decide
-- X11
theorem test_load_keeps_fault :
    (hostLoad [0x12, 0x00] { State.reset with fault := some .stackOverflow }).1.fault = some .stackOverflow := by decide
-- memory stays canonical: a zero written removes the entry
theorem test_memory_canonical : Memory.write [(5, 1), (7, 2)] 5 0 = [(7, 2)] ∧
    Memory.write [(7, 2)] 5 1 = [(5, 1), (7, 2)] := by decide

/-! ## Witnesses: the hypotheses of every statement are met, each clause at a boundary value -/

theorem witness_EncodeOfDecode : decodeWord 0x8124 = .ok (.add 1 2) := by rfl

theorem witness_IllegalWordsRaiseDecodeError : State.reset.Running ∧ State.reset.fetchWord = some 0x0000 ∧
    IllegalWord 0x0000 := ⟨⟨rfl, rfl⟩, by decide, Or.inl ⟨by decide, by decide, by decide⟩⟩

/-- An illegal word of each family beside a legal one. -/
theorem witness_IllegalWord_families : IllegalWord 0x00E1 ∧ ¬IllegalWord 0x00E0 ∧ IllegalWord 0x8128 ∧
    ¬IllegalWord 0x8127 ∧ IllegalWord 0xE39F ∧ ¬IllegalWord 0xE39E ∧ IllegalWord 0xF166 ∧ ¬IllegalWord 0xF165 := by
  simp [IllegalWord]

theorem witness_OpcodeRowsAgreeWithDecoder : Instr.row (.ldm 0) ∈ opcodeTable ∧ opcodeTable.length = 34 := by decide

/-- The last address a word can be fetched from, with a legal word there. -/
def atTop : State := { State.reset with pc := 0xFFE, mem := Memory.writeBytes [] 0xFFE [0x12, 0x00] }

theorem witness_StepFetchesBigEndian_beyond : State.Running { State.reset with pc := 0xFFF } ∧
    0xFFE < (0xFFF#16).toNat := ⟨⟨rfl, rfl⟩, by decide⟩

theorem witness_StepFetchesBigEndian_last : atTop.Running ∧ atTop.pc.toNat ≤ 0xFFE ∧
    (0x1200#16).toNat = (atTop.mem.read atTop.pc.toNat).toNat * 256 + (atTop.mem.read (atTop.pc.toNat + 1)).toNat ∧
    decodeWord 0x1200 = .ok (.jp 0x200) := ⟨⟨rfl, rfl⟩, by decide, by decide, rfl⟩

theorem witness_StepFetchesBigEndian_illegal : State.reset.Running ∧ State.reset.pc.toNat ≤ 0xFFE ∧
    (0x0000#16).toNat = (State.reset.mem.read 0x200).toNat * 256 + (State.reset.mem.read 0x201).toNat ∧
    decodeWord 0x0000 = .error (.family0 0x0000) := ⟨⟨rfl, rfl⟩, by decide, by decide, rfl⟩

theorem witness_StepRunsDecodedInstruction : atTop.Running ∧ atTop.pc.toNat ≤ 0xFFE ∧
    decodeBytes [atTop.mem.read atTop.pc.toNat, atTop.mem.read (atTop.pc.toNat + 1)] = .ok (.jp 0x200, []) :=
  ⟨⟨rfl, rfl⟩, by decide, rfl⟩

theorem witness_PlacedWordRunsNext : decodeTableWord 16 0x6A02 = some (.ldi 0xA 0x02) := by decide

theorem witness_FaultedCoreDoesNothing : State.Faulted { State.reset with fault := some .stackOverflow } :=
  Option.some_ne_none _

theorem witness_WaitStepLoadsAPressedKey_held :
    State.Awaiting { State.reset with wait := true } ∧ State.reset.keys = 0 := ⟨⟨rfl, rfl⟩, rfl⟩

theorem witness_WaitStepLoadsAPressedKey_pressed :
    State.Awaiting { State.reset with wait := true, waitx := 15, keys := 0x8000 } ∧ (0x8000#16) ≠ 0 :=
  ⟨⟨rfl, rfl⟩, by decide⟩

theorem witness_FaultsArePrecise : State.reset.fault = none ∧
    step State.reset = .next { State.reset with fault := some (.decodeError 0x0000) } ∧
    State.fault { State.reset with fault := some (.decodeError 0x0000) } ≠ none :=
  ⟨rfl, rfl, Option.some_ne_none _⟩

/-- Each cause of R122 raised by one step (for the others see `test_ret_empty`, `test_call_full`,
`test_bcd_edge`, `test_stm_edge`, `test_ldm_edge`, `test_skp_no_such_key`, `test_fetch_beyond`,
`test_zero_word`). -/
theorem witness_FaultCausesExactly_sknp : stepFaults ((base 0xE3A1).setV 3 0xFF) (.outOfRange .key) = true := by decide

/-- Vectors G5, G6: the first column and the first row off the display. -/
theorem witness_FaultCausesExactly_pixel : stepFaults (drawing 0xD011 57 0) (.outOfRange .pixel) = true ∧
    stepFaults (drawing 0xD012 0 31) (.outOfRange .pixel) = true := by decide

/-- Vectors G11, G12: memory is reported, also where the rectangle is off the display too. -/
theorem witness_FaultCausesExactly_mem : stepFaults { drawing 0xD012 0 0 with i := 0xFFF } (.outOfRange .mem) = true ∧
    stepFaults { drawing 0xD012 60 0 with i := 0xFFF } (.outOfRange .mem) = true := by decide

theorem witness_ResetMeetsInv : State.reset.Inv :=
  ⟨by decide, by decide, fun k _ h => absurd h (Nat.not_lt_zero k)⟩

theorem witness_StepKeepsInv : State.reset.Inv ∧
    step State.reset = .next { State.reset with fault := some (.decodeError 0x0000) } := ⟨witness_ResetMeetsInv, rfl⟩

theorem witness_ReachableStatesMeetInv : Reachable (hostLoad [0x12, 0x00] State.reset).1 :=
  .next (.load [0x12, 0x00]) .launch rfl

theorem witness_CoreLeavesKeysAndTimers_dt :
    steps ((base 0xF215).setV 2 0x3C) (fun t => t.dt != ((base 0xF215).setV 2 0x3C).dt) = true := by decide

theorem witness_CoreLeavesKeysAndTimers_st :
    steps ((base 0xF418).setV 4 5) (fun t => t.st != ((base 0xF418).setV 4 5).st) = true := by decide

theorem witness_InstructionsKeepToTheirWriteSets :
    (∃ t, exec (.add 1 2) State.reset = .next t) ∧ ¬ (Instr.add 1 2).WritesReg 3 :=
  ⟨⟨_, rfl⟩, by simp [Instr.WritesReg, flagReg]⟩

/-- The bytes just below and just above a block store that ends at 0xFFE. -/
theorem witness_InstructionsKeepToTheirWriteSets_bytes :
    (∃ t, exec (.stm 1) { State.reset with i := 0xFFD } = .next t) ∧
    ¬((0xFFD#16).toNat ≤ 0xFFC ∧ 0xFFC < (0xFFD#16).toNat + (Instr.stm 1).storedBytes) ∧
    ¬((0xFFD#16).toNat ≤ 0xFFF ∧ 0xFFF < (0xFFD#16).toNat + (Instr.stm 1).storedBytes) :=
  ⟨⟨_, rfl⟩, by decide, by decide⟩

/-- The entry just below the one the last call that fits writes. -/
theorem witness_InstructionsKeepToTheirWriteSets_entries :
    (∃ t, exec (.call 0x300) { State.reset with sp := 15 } = .next t) ∧
    ¬(Instr.call 0x300).WritesEntry { State.reset with sp := 15 } 14 :=
  ⟨⟨_, rfl⟩, by simp [Instr.WritesEntry]⟩

theorem witness_FlagIsZeroOrOne : (Instr.add 1 2).SetsFlag ∧ State.reset.fault = none ∧
    ∃ t, exec (.add 1 2) State.reset = .next t ∧ t.fault = none := ⟨trivial, rfl, _, rfl, rfl⟩

theorem witness_WaitEnteredByWkeyOnly_entered :
    (base 0xF30A).wait = false ∧ steps (base 0xF30A) (fun t => t.wait) = true := by decide

theorem witness_WaitEnteredByWkeyOnly_left : State.wait { State.reset with wait := true, keys := 1 } = true ∧
    ∃ t, step { State.reset with wait := true, keys := 1 } = .next t ∧ t.wait = false := ⟨rfl, _, rfl, rfl⟩

theorem witness_DelayTimerFallsBetweenWrites :
    (Event.timerTick = .step → ∀ x, ¬ State.reset.Fetches (.stdt x)) ∧
    applyEvent .timerTick State.reset = .next State.reset := And.intro (fun h => by cases h) rfl

theorem witness_SoundTimerHasNoEffect : SameButSt State.reset { State.reset with st := 9 } ∧
    runEvents [.timerTick, .keyWrite 1] State.reset = .next { State.reset with keys := 1 } := ⟨rfl, rfl⟩

theorem witness_StaleStackEntriesUnobservable :
    SameButStale { State.reset with sp := 1 } { State.reset with sp := 1, stk := State.reset.stk.set 1 0x206 } ∧
    runEvents [.timerTick] { State.reset with sp := 1 } = .next { State.reset with sp := 1 } := by
  refine ⟨⟨rfl, fun k hk => ?_⟩, rfl⟩
  have : k = 0 := by simp at hk; omega
  subst this; rfl

/-- Program P2 of spec/95_test_vectors.md, loaded: a jump to itself at 0x200. -/
theorem witness_ParkedStaysParked : (base 0x1200).Parked ∧
    ∀ e ∈ [Event.step, .keyWrite 0x0020, .timerTick], e ≠ .reset ∧ ∀ p, e ≠ .load p :=
  ⟨⟨⟨rfl, rfl⟩, by decide, by decide⟩, by simp⟩

/-- A core parked at the last address a jump can stand at. -/
theorem witness_ParkedStaysParked_last :
    State.Parked { State.reset with pc := 0xFFE, mem := Memory.writeBytes [] 0xFFE [0x1F, 0xFE] } :=
  ⟨⟨rfl, rfl⟩, by decide, by decide⟩

theorem witness_LoadPlacesImage_fits : (List.replicate 3584 (0x12 : Byte)).length ≤ 3584 := by
  rw [List.length_replicate]

theorem witness_LoadPlacesImage_too_long : 3584 < (List.replicate 3585 (0x12 : Byte)).length := by
  rw [List.length_replicate]; omega

theorem witness_RetPopsReturnAddress_full : (State.sp { State.reset with sp := 16 }).val ≠ 0 := by decide

theorem witness_RetPopsReturnAddress_empty : State.reset.sp.val = 0 := rfl

theorem witness_CallPushesReturnAddress_last : (State.sp { State.reset with sp := 15 }).val ≠ 16 := by decide

theorem witness_CallPushesReturnAddress_full : (State.sp { State.reset with sp := 16 }).val = 16 := rfl

theorem witness_NestedCallsReturn : List.replicate 16 (0x300 : Addr12) ≠ [] ∧
    State.reset.sp.val + (List.replicate 16 (0x300 : Addr12)).length ≤ 16 := by decide

theorem witness_KeySkips_last : ((State.reset.setV 3 15).readV 3).toNat ≤ 15 := by decide

theorem witness_KeySkips_beyond : 15 < ((State.reset.setV 3 16).readV 3).toNat := by decide

/-- The hypothesis of `AddSetsCarry`, `SubtractionsSetGreater` and `ShiftsSetBitOut`. -/
theorem witness_result_register : (0 : Reg) ≠ flagReg ∧ (14 : Reg) ≠ flagReg := by decide

/-- The last legal corner (vector G4). -/
theorem witness_DrwXorsSprite_corner : DrawFits (drawing 0xD011 56 31) 0 1 1 := Or.inr (by decide)

theorem witness_DrwXorsSprite_last_byte : DrawFits { drawing 0xD011 0 0 with i := 0xFFF } 0 1 1 := Or.inr (by decide)

theorem witness_DrwXorsSprite_zero_rows : DrawFits { drawing 0xD010 255 255 with i := 0xFFFF } 0 1 0 := Or.inl rfl

theorem witness_DrwRangeFaults_mem : 1 ≤ (1 : Nibble).val ∧
    0xFFF < (State.i { State.reset with i := 0x1000 }).toNat + (1 : Nibble).val - 1 := by decide

theorem witness_DrwRangeFaults_pixel_column : 1 ≤ (1 : Nibble).val ∧
    (drawing 0xD011 57 0).i.toNat + (1 : Nibble).val - 1 ≤ 0xFFF ∧
    63 < ((drawing 0xD011 57 0).readV 0).toNat + 7 := by decide

theorem witness_DrwRangeFaults_pixel_row : 1 ≤ (15 : Nibble).val ∧
    (drawing 0xD01F 0 18).i.toNat + (15 : Nibble).val - 1 ≤ 0xFFF ∧
    31 < ((drawing 0xD01F 0 18).readV 1).toNat + (15 : Nibble).val - 1 := by decide

theorem witness_DrwRangeFaults_zero_rows : (0 : Nibble).val = 0 := rfl

theorem witness_DrwTwiceRestoresDisplay : (0 : Reg) ≠ flagReg ∧ (1 : Reg) ≠ flagReg ∧
    DrawFits (drawing 0xD012 4 2) 0 1 2 ∧ spriteAt (drawing 0xD012 4 2) 0 1 2 4 2 = true :=
  ⟨by decide, by decide, Or.inr (by decide), by decide⟩

theorem witness_DrwTwiceRestoresDisplay_off : ∀ px py, spriteAt (drawing 0xD012 4 2) 0 1 2 px py = true →
    (drawing 0xD012 4 2).pixel px py = false := by
  intro px py _
  simp [drawing, regs2, base, State.pixel, State.setV, State.reset, Display.get]

theorem witness_WkeyStartsWait_held : State.reset.fault = none ∧ State.reset.keys = 0 := ⟨rfl, rfl⟩

theorem witness_WkeyStartsWait_pressed : State.fault { State.reset with keys := 0x8000 } = none ∧
    State.keys { State.reset with keys := 0x8000 } ≠ 0 := ⟨rfl, by decide⟩

theorem witness_BcdStoresDigits_last : (State.i { State.reset with i := 0xFFD }).toNat + 2 ≤ 0xFFF := by decide

theorem witness_BcdStoresDigits_beyond : 0xFFF < (State.i { State.reset with i := 0xFFE }).toNat + 2 := by decide

/-- For `StmStoresBlock`, `LdmLoadsBlock` and `StoreThenLoadRoundTrips`. -/
theorem witness_block_last : (State.i { State.reset with i := 0xFF0 }).toNat + (15 : Reg).val ≤ 0xFFF := by decide

/-- For `StmStoresBlock` and `LdmLoadsBlock`. -/
theorem witness_block_beyond : 0xFFF < (State.i { State.reset with i := 0xFF1 }).toNat + (15 : Reg).val := by decide

/-- A state with the same `I` and memory as after the store, its registers zero (vector E6). -/
theorem witness_StoreThenLoadRoundTrips : ∃ t u : State,
    exec (.stm 1) (regs2 { State.reset with i := 0x400 } 0 0x11 1 0x22) = .next t ∧
    u.i = (regs2 { State.reset with i := 0x400 } 0 0x11 1 0x22).i ∧ (∀ a, u.mem.read a = t.mem.read a) ∧ u.readV 0 = 0 :=
  ⟨_, { State.reset with i := 0x400, mem := Memory.writeBytes [] 0x400 [0x11, 0x22] }, rfl, rfl, fun _ => rfl, rfl⟩

/-- A block store that overwrites the two bytes after itself. -/
theorem witness_StoredCodeIsFetchedNext : State.Fetches { base 0xF155 with i := 0x202 } (.stm 1) ∧
    (State.i { base 0xF155 with i := 0x202 }).toNat + (1 : Reg).val ≤ 0xFFF ∧ (0 : Reg) ≤ 1 ∧ (1 : Reg) ≤ 1 ∧
    (0x202#16).toNat + (0 : Reg).val = (base 0xF155).pc.toNat + 2 ∧
    (0x202#16).toNat + (1 : Reg).val = (base 0xF155).pc.toNat + 3 :=
  ⟨⟨⟨rfl, rfl⟩, 0xF155, by decide, rfl⟩, by decide, by decide, by decide, by decide, by decide⟩

end Sys2Proof.Tests
end

section
/-! PROOFS. What the core's step and each instruction that can fault answer, said once as equations
and as inversions (spec/30_encoding.md R46, 60_exceptions.md R122 to R125). -/

namespace Sys2Proof.Machine

/-! ## The step -/

/-- A Faulted core's step does nothing (R125). -/
theorem step_faulted {s : State} (h : s.Faulted) : step s = .next s := if_pos (Option.isSome_iff_ne_none.mpr h)

/-- A waiting core's step is the `WaitStep` (R108). -/
theorem step_awaiting {s : State} (h : s.Awaiting) : step s = .next (waitStep s) := by
  obtain ⟨hf, hw⟩ := h
  simp [step, cycle, hf, hw]

/-- A fetch beyond memory raises its fault (R32). -/
theorem step_fetch_fault {s : State} (h : s.Running) (hw : s.fetchWord = none) :
    step s = raise (.outOfRange .fetch) s := by
  simp [step_running h, fetchDecodeExecute, hw]

/-- A fetched illegal word raises its fault (R52). -/
theorem step_decode_fault {s : State} {w : Word} {e : DecodeReject} (h : s.Running)
    (hw : s.fetchWord = some w) (hd : decodeWord w = .error e) : step s = raise (.decodeError w) s := by
  simp [step_running h, fetchDecodeExecute, hw, hd]

/-- What a step can have done that answered `t`: nothing, the deferred load, a fault of fetch or decode,
or the instruction fetched. -/
theorem step_next {s t : State} (h : step s = .next t) :
    (s.Faulted ∧ t = s) ∨ (s.Awaiting ∧ t = waitStep s) ∨
    (∃ f, s.Running ∧ t = { s with fault := some f }) ∨ ∃ i, s.Fetches i ∧ exec i s = .next t := by
  obtain ⟨hf, he⟩ | ⟨ha, he⟩ | ⟨hr, -, he⟩ | ⟨w, e, hr, -, -, he⟩ | ⟨w, i, hr, hw, hd, he⟩ :=
    step_cases s <;> rw [he] at h
  · cases h
    exact .inl ⟨hf, rfl⟩
  · cases h
    exact .inr (.inl ⟨ha, rfl⟩)
  · exact .inr (.inr (.inl ⟨_, hr, raise_next h⟩))
  · exact .inr (.inr (.inl ⟨_, hr, raise_next h⟩))
  · exact .inr (.inr (.inr ⟨i, ⟨hr, w, hw, hd⟩, h⟩))

/-- An instruction is only fetched at a `pc` of at most 0xFFE (R32). -/
theorem State.Fetches.pc_le {s : State} {i : Instr} (h : s.Fetches i) : s.pc.toNat ≤ 0xFFE := by
  obtain ⟨-, w, hw, -⟩ := h
  exact State.fetchWord_le hw

/-! ## Instructions that check an operand first (R33, R96, R102) -/

/-- The common shape of the instructions that check before they write: the completed state where the
check holds, else the fault. -/
def guarded (ok : Bool) (f : FaultRecord) (s u : State) : Answer := if ok then .next u else raise f s

theorem guarded_next {ok : Bool} {f : FaultRecord} {s u t : State} (h : guarded ok f s u = .next t) :
    t = { s with fault := some f } ∨ (ok = true ∧ t = u) := by
  cases ok with
  | false => exact .inl (raise_next h)
  | true =>
    cases h
    exact .inr ⟨rfl, rfl⟩

/-- `Fx33` (R113). -/
theorem exec_bcd (x : Reg) (s : State) :
    exec (.bcd x) s = guarded (dataFits s.i.toNat 3) (.outOfRange .mem) s
      { s with mem := s.mem.writeBytes s.i.toNat (bcdDigits (s.readV x)) }.advance := by
  simp only [exec, execBcd, guarded]
  cases dataFits s.i.toNat 3 <;> rfl

/-- `Fx55` (R114). -/
theorem exec_stm (x : Reg) (s : State) :
    exec (.stm x) s = guarded (dataFits s.i.toNat (x.val + 1)) (.outOfRange .mem) s
      { s with mem := s.mem.writeBytes s.i.toNat (s.regsUpTo x) }.advance := by
  simp only [exec, execStm, guarded]
  cases dataFits s.i.toNat (x.val + 1) <;> rfl

/-- `Fx65` (R115). -/
theorem exec_ldm (x : Reg) (s : State) :
    exec (.ldm x) s = guarded (dataFits s.i.toNat (x.val + 1)) (.outOfRange .mem) s
      { s with v := loadRegs s.v 0 (s.mem.readBytes s.i.toNat (x.val + 1)) }.advance := by
  simp only [exec, execLdm, guarded]
  cases dataFits s.i.toNat (x.val + 1) <;> rfl

/-- Both key skips (R102). -/
theorem keySkip_guarded (want : Bool) (x : Reg) (s : State) :
    keySkip want x s = guarded (decide ((s.readV x).toNat ≤ 15)) (.outOfRange .key) s
      (s.skipIf (s.keyDown (s.readV x).toNat == want)) := by
  by_cases h : (s.readV x).toNat ≤ 15
  · rw [keySkip_key h, guarded, if_pos (decide_eq_true h)]
  · rw [keySkip_noKey (by omega), guarded, if_neg (by simpa using h)]

theorem exec_skp (x : Reg) (s : State) :
    exec (.skp x) s = guarded (decide ((s.readV x).toNat ≤ 15)) (.outOfRange .key) s
      (s.skipIf (s.keyDown (s.readV x).toNat == true)) := keySkip_guarded true x s

theorem exec_sknp (x : Reg) (s : State) :
    exec (.sknp x) s = guarded (decide ((s.readV x).toNat ≤ 15)) (.outOfRange .key) s
      (s.skipIf (s.keyDown (s.readV x).toNat == false)) := keySkip_guarded false x s

/-- The display after the sprite of `Dxyn` is drawn, and whether it hit a lit pixel (R95, R97). -/
def drawResult (s : State) (x y : Reg) (n : Nibble) : Display × Bool :=
  drawSprite (s.readV x).toNat (s.readV y).toNat (s.mem.readBytes s.i.toNat n.val) (s.fb, false)

/-- The fault of a draw that does not fit: memory is reported before the rectangle (R96, R123). -/
def drawFault (s : State) (n : Nibble) : FaultRecord :=
  if dataFits s.i.toNat n.val then .outOfRange .pixel else .outOfRange .mem

/-- `Dxyn`: both checks, then the drawing, the flag and the `Refresh` (R95, R96). -/
theorem exec_drw (x y : Reg) (n : Nibble) (s : State) :
    exec (.drw x y n) s =
      guarded (dataFits s.i.toNat n.val && rectFits (s.readV x).toNat (s.readV y).toNat n.val) (drawFault s n) s
        ({ s with fb := (drawResult s x y n).1 }.setV flagReg
          (flagByte (drawResult s x y n).2)).emitRefresh.advance := by
  simp only [exec, execDrw, guarded, drawFault]
  cases dataFits s.i.toNat n.val <;> cases rectFits (s.readV x).toNat (s.readV y).toNat n.val <;> rfl

/-! ## Call and return (R61, R64) -/

theorem exec_ret_empty {s : State} (h : s.sp.val = 0) : exec .ret s = raise .stackUnderflow s := by
  simp [exec, execRet, State.pop_none.mpr h]

theorem exec_ret_pop {s : State} (h : s.sp.val ≠ 0) :
    exec .ret s = .next ({ s with sp := ⟨s.sp.val - 1, by omega⟩ }.setPc (s.stk[s.sp.val - 1]'(by omega))) := by
  simp [exec, execRet, State.pop_some h]

theorem exec_ret_next {s t : State} (h : exec .ret s = .next t) :
    t = { s with fault := some .stackUnderflow } ∨
    ∃ _ : s.sp.val ≠ 0, t = { s with sp := ⟨s.sp.val - 1, by omega⟩ }.setPc (s.stk[s.sp.val - 1]'(by omega)) := by
  by_cases hs : s.sp.val = 0
  · rw [exec_ret_empty hs] at h
    exact .inl (raise_next h)
  · rw [exec_ret_pop hs] at h
    cases h
    exact .inr ⟨hs, rfl⟩

theorem exec_call_full {s : State} (nnn : Addr12) (h : s.sp.val = 16) :
    exec (.call nnn) s = raise .stackOverflow s := by
  simp [exec, execCall, (State.push_none s.npc).mpr h]

theorem exec_call_push {s : State} (nnn : Addr12) (h : s.sp.val < 16) :
    exec (.call nnn) s =
      .next ({ s with stk := s.stk.set s.sp.val s.npc, sp := ⟨s.sp.val + 1, by omega⟩ }.setPc (addrWord nnn)) := by
  simp [exec, execCall, State.push_some s.npc h]

theorem exec_call_next {nnn : Addr12} {s t : State} (h : exec (.call nnn) s = .next t) :
    t = { s with fault := some .stackOverflow } ∨
    ∃ _ : s.sp.val < 16,
      t = { s with stk := s.stk.set s.sp.val s.npc, sp := ⟨s.sp.val + 1, by omega⟩ }.setPc (addrWord nnn) := by
  by_cases hs : s.sp.val < 16
  · rw [exec_call_push nnn hs] at h
    cases h
    exact .inr ⟨hs, rfl⟩
  · rw [exec_call_full nnn (by omega)] at h
    exact .inl (raise_next h)

end Sys2Proof.Machine
end

section
/-! PROOFS. Frames (spec/10_state.md R24): which pieces of state an operation, an instruction or a step
may write, the others being identically the same. -/

namespace Sys2Proof.Machine

/-! ## Identical pieces of state -/

/-- That piece of state is identically the same in `t` as in `s`: for memory, the display and the
registers more than `Field.Same` asks. -/
def Field.Unchanged (s t : State) : Field → Prop
  | .v => t.v = s.v
  | .pc => t.pc = s.pc
  | .i => t.i = s.i
  | .sp => t.sp = s.sp
  | .stk => t.stk = s.stk
  | .mem => t.mem = s.mem
  | .fb => t.fb = s.fb
  | .dt => t.dt = s.dt
  | .st => t.st = s.st
  | .keys => t.keys = s.keys
  | .wait => t.wait = s.wait
  | .waitx => t.waitx = s.waitx
  | .fault => t.fault = s.fault
  | .draws => t.draws = s.draws
  | .refreshes => t.refreshes = s.refreshes

theorem Field.Unchanged.refl (f : Field) (s : State) : f.Unchanged s s := by
  cases f <;> rfl

theorem Field.Unchanged.trans {f : Field} {s t u : State} (h : f.Unchanged s t) (h' : f.Unchanged t u) :
    f.Unchanged s u := by
  cases f <;> exact Eq.trans h' h

theorem Field.Unchanged.same {f : Field} {s t : State} (h : f.Unchanged s t) : f.Same s t := by
  cases f with
  | v => exact fun r => congrArg (fun v : Vector Byte 16 => v[r.val]) h
  | mem => exact fun a => congrArg (fun m : Memory => m.read a) h
  | fb => exact fun px py => congrArg (fun fb : Display => fb.get px py) h
  | _ => exact h

/-- Every piece of state but those listed is identically the same. -/
def OnlyWrites (fs : List Field) (s t : State) : Prop := ∀ f, f ∉ fs → f.Unchanged s t

namespace OnlyWrites

theorem onlyChanges {fs : List Field} {s t : State} (h : OnlyWrites fs s t) : OnlyChanges fs s t :=
  fun f hf => (h f hf).same

theorem mono {fs gs : List Field} {s t : State} (h : OnlyWrites fs s t) (hsub : fs ⊆ gs) : OnlyWrites gs s t :=
  fun f hf => h f fun hm => hf (hsub hm)

theorem trans {fs gs : List Field} {s t u : State} (h : OnlyWrites fs s t) (h' : OnlyWrites gs t u) :
    OnlyWrites (fs ++ gs) s u := fun f hf =>
  (h f fun hm => hf (List.mem_append_left gs hm)).trans (h' f fun hm => hf (List.mem_append_right fs hm))

/-! ## One rule per state operation -/

theorem setPc (s : State) (p : Word) : OnlyWrites [.pc] s (s.setPc p) := by
  intro f hf
  cases f <;> simp_all [Field.Unchanged]

theorem advance (s : State) : OnlyWrites [.pc] s s.advance := setPc s s.npc

theorem skipIf (s : State) (c : Bool) : OnlyWrites [.pc] s (s.skipIf c) := setPc s _

theorem withV (s : State) (v : Vector Byte 16) : OnlyWrites [.v] s { s with v := v } := by
  intro f hf
  cases f <;> simp_all [Field.Unchanged]

theorem setV (s : State) (x : Reg) (b : Byte) : OnlyWrites [.v] s (s.setV x b) := withV s _

theorem setResultFlag (s : State) (x : Reg) (r : Byte × Bool) : OnlyWrites [.v] s (s.setResultFlag x r) :=
  withV s _

theorem withI (s : State) (a : Word) : OnlyWrites [.i] s { s with i := a } := by
  intro f hf
  cases f <;> simp_all [Field.Unchanged]

theorem withStack (s : State) (st : Vector Word 16) (d : Fin 17) :
    OnlyWrites [.stk, .sp] s { s with stk := st, sp := d } := by
  intro f hf
  cases f <;> simp_all [Field.Unchanged]

theorem withSp (s : State) (d : Fin 17) : OnlyWrites [.sp] s { s with sp := d } := by
  intro f hf
  cases f <;> simp_all [Field.Unchanged]

theorem withMem (s : State) (m : Memory) : OnlyWrites [.mem] s { s with mem := m } := by
  intro f hf
  cases f <;> simp_all [Field.Unchanged]

theorem withFb (s : State) (fb : Display) : OnlyWrites [.fb] s { s with fb := fb } := by
  intro f hf
  cases f <;> simp_all [Field.Unchanged]

theorem withDt (s : State) (b : Byte) : OnlyWrites [.dt] s { s with dt := b } := by
  intro f hf
  cases f <;> simp_all [Field.Unchanged]

theorem withSt (s : State) (b : Byte) : OnlyWrites [.st] s { s with st := b } := by
  intro f hf
  cases f <;> simp_all [Field.Unchanged]

theorem withKeys (s : State) (m : Word) : OnlyWrites [.keys] s { s with keys := m } := by
  intro f hf
  cases f <;> simp_all [Field.Unchanged]

theorem withWait (s : State) (b : Bool) : OnlyWrites [.wait] s { s with wait := b } := by
  intro f hf
  cases f <;> simp_all [Field.Unchanged]

theorem withLatch (s : State) (b : Bool) (x : Reg) :
    OnlyWrites [.wait, .waitx] s { s with wait := b, waitx := x } := by
  intro f hf
  cases f <;> simp_all [Field.Unchanged]

theorem withFault (s : State) (r : Option FaultRecord) : OnlyWrites [.fault] s { s with fault := r } := by
  intro f hf
  cases f <;> simp_all [Field.Unchanged]

theorem drawByte (s : State) : OnlyWrites [.draws] s s.drawByte.2 := by
  intro f hf
  cases f <;> simp_all [Field.Unchanged]

theorem emitRefresh (s : State) : OnlyWrites [.refreshes] s s.emitRefresh := by
  intro f hf
  cases f <;> simp_all [Field.Unchanged]

/-- A fault writes the latch alone (R124). -/
theorem fault {fs : List Field} (hf : .fault ∈ fs) (s : State) (r : Option FaultRecord) :
    OnlyWrites fs s { s with fault := r } := (withFault s r).mono (by simpa using hf)

/-- A checked instruction writes the latch, or what its completion writes. -/
theorem of_guarded {fs : List Field} {ok : Bool} {r : FaultRecord} {s u t : State} (h : guarded ok r s u = .next t)
    (hf : .fault ∈ fs) (hu : OnlyWrites fs s u) : OnlyWrites fs s t := by
  obtain rfl | ⟨-, rfl⟩ := guarded_next h
  · exact fault hf s _
  · exact hu

/-! ## The events that run no instruction -/

theorem waitStep (s : State) : OnlyWrites [.v, .wait] s (waitStep s) := by
  by_cases hk : s.keys = 0
  · rw [waitStep_idle hk]
    exact fun f _ => .refl f s
  · rw [waitStep_load hk]
    exact (setV s _ _).trans (withWait _ _)

theorem keyWrite (m : Word) (s : State) : OnlyWrites [.keys] s (keyWrite m s) := withKeys s m

theorem timerTick (s : State) : OnlyWrites [.dt, .st] s (timerTick s) :=
  (withDt s (tickDown s.dt)).trans (withSt { s with dt := tickDown s.dt } (tickDown s.st))

end OnlyWrites

end Sys2Proof.Machine

namespace Sys2Proof

open Machine

/-! ## Which instructions have a piece of state in their write set (R24) -/

variable {i : Instr}

theorem Instr.keys_notMem_writes (i : Instr) : Field.keys ∉ i.writes := by
  cases i <;> simp [Instr.writes]

theorem Instr.mem_writes_dt : Field.dt ∈ i.writes ↔ ∃ x, i = .stdt x := by
  cases i <;> simp [Instr.writes]

theorem Instr.mem_writes_st : Field.st ∈ i.writes ↔ ∃ x, i = .stst x := by
  cases i <;> simp [Instr.writes]

theorem Instr.mem_writes_wait : Field.wait ∈ i.writes ↔ ∃ x, i = .wkey x := by
  cases i <;> simp [Instr.writes]

theorem Instr.mem_writes_mem : Field.mem ∈ i.writes ↔ ∃ x, i = .bcd x ∨ i = .stm x := by
  cases i <;> simp [Instr.writes]

theorem Instr.mem_writes_stk : Field.stk ∈ i.writes ↔ ∃ nnn, i = .call nnn := by
  cases i <;> simp [Instr.writes]

theorem Instr.mem_writes_sp : Field.sp ∈ i.writes ↔ i = .ret ∨ ∃ nnn, i = .call nnn := by
  cases i <;> simp [Instr.writes]

end Sys2Proof

namespace Sys2Proof.Machine

/-! ## Every instruction keeps to its write set -/

/-- The write set of every instruction, one case for each way of writing. -/
theorem exec_onlyWrites {i : Instr} {s t : State} (h : exec i s = .next t) : OnlyWrites i.writes s t := by
  cases i with
  | jp _ | jpv0 _ =>
    cases h
    exact .setPc s _
  | sei _ _ | snei _ _ | ser _ _ _ | sner _ _ _ =>
    cases h
    exact .skipIf s _
  | skp x =>
    exact .of_guarded (exec_skp x s ▸ h) (by simp [Instr.writes])
      ((OnlyWrites.skipIf s _).mono (by simp [Instr.writes]))
  | sknp x =>
    exact .of_guarded (exec_sknp x s ▸ h) (by simp [Instr.writes])
      ((OnlyWrites.skipIf s _).mono (by simp [Instr.writes]))
  | cls =>
    cases h
    exact (OnlyWrites.withFb s _).trans (.advance _)
  | ret =>
    obtain rfl | ⟨_, rfl⟩ := exec_ret_next h
    · exact .fault (by simp [Instr.writes]) s _
    · exact ((OnlyWrites.withSp s _).trans (.setPc _ _)).mono (by simp [Instr.writes])
  | call _ =>
    obtain rfl | ⟨_, rfl⟩ := exec_call_next h
    · exact .fault (by simp [Instr.writes]) s _
    · exact ((OnlyWrites.withStack s _ _).trans (.setPc _ _)).mono (by simp [Instr.writes])
  | ldi _ _ | addi _ _ | mov _ _ | or _ _ | and _ _ | xor _ _ | lddt _ =>
    cases h
    exact (OnlyWrites.setV s _ _).trans (.advance _)
  | add _ _ | sub _ _ | shr _ _ | subn _ _ | shl _ _ =>
    cases h
    exact (OnlyWrites.setResultFlag s _ _).trans (.advance _)
  | lda _ | adda _ | font _ =>
    cases h
    exact (OnlyWrites.withI s _).trans (.advance _)
  | rnd _ _ =>
    cases h
    exact (((OnlyWrites.drawByte s).trans (.setV _ _ _)).trans (.advance _)).mono (by simp [Instr.writes])
  | drw x y n =>
    exact .of_guarded (exec_drw x y n s ▸ h) (by simp [Instr.writes])
      (((((OnlyWrites.withFb s _).trans (.setV _ _ _)).trans (.emitRefresh _)).trans (.advance _)).mono
        (by simp [Instr.writes]))
  | wkey _ =>
    cases h
    exact (OnlyWrites.withLatch s _ _).trans (.advance _)
  | stdt _ =>
    cases h
    exact (OnlyWrites.withDt s _).trans (.advance _)
  | stst _ =>
    cases h
    exact (OnlyWrites.withSt s _).trans (.advance _)
  | bcd x =>
    exact .of_guarded (exec_bcd x s ▸ h) (by simp [Instr.writes])
      (((OnlyWrites.withMem s _).trans (.advance _)).mono (by simp [Instr.writes]))
  | stm x =>
    exact .of_guarded (exec_stm x s ▸ h) (by simp [Instr.writes])
      (((OnlyWrites.withMem s _).trans (.advance _)).mono (by simp [Instr.writes]))
  | ldm x =>
    exact .of_guarded (exec_ldm x s ▸ h) (by simp [Instr.writes])
      (((OnlyWrites.withV s _).trans (.advance _)).mono (by simp [Instr.writes]))

/-- The registers an instruction does not name as its own to write keep their values (R11, R24). -/
theorem exec_otherRegs {i : Instr} {s t : State} (h : exec i s = .next t) (r : Reg) (hr : ¬ i.WritesReg r) :
    t.readV r = s.readV r := by
  by_cases hv : Field.v ∈ i.writes
  case neg => exact (exec_onlyWrites h .v hv).same r
  cases i with
  | ldi _ _ | addi _ _ | mov _ _ | or _ _ | and _ _ | xor _ _ | lddt _ | rnd _ _ =>
    cases h
    exact (State.readV_setV _ _ r _).trans (if_neg hr)
  | add _ _ | sub _ _ | shr _ _ | subn _ _ | shl _ _ =>
    cases h
    obtain ⟨hx, hf⟩ := not_or.mp hr
    exact (State.readV_setResultFlag _ _ r _).trans ((if_neg hf).trans (if_neg hx))
  | drw x y n =>
    rw [exec_drw] at h
    obtain rfl | ⟨-, rfl⟩ := guarded_next h
    · rfl
    · exact (State.readV_setV _ _ r _).trans (if_neg hr)
  | ldm x =>
    rw [exec_ldm] at h
    obtain rfl | ⟨-, rfl⟩ := guarded_next h
    · rfl
    · refine (loadRegs_get _ s.v 0 r).trans (if_neg fun ⟨_, hlt⟩ => hr (Fin.le_def.mpr ?_))
      rw [Memory.length_readBytes] at hlt
      omega
  | _ => simp [Instr.writes] at hv

/-- The bytes from `I` up that an instruction may store are the only ones that can differ (R24). -/
theorem exec_otherBytes {i : Instr} {s t : State} (h : exec i s = .next t) :
    OtherBytes s.i.toNat i.storedBytes s t := by
  intro a ha
  by_cases hm : Field.mem ∈ i.writes
  case neg => exact (exec_onlyWrites h .mem hm).same a
  obtain ⟨x, rfl | rfl⟩ := Instr.mem_writes_mem.mp hm
  · rw [exec_bcd] at h
    obtain rfl | ⟨-, rfl⟩ := guarded_next h
    · rfl
    · rw [State.advance_mem, Memory.read_writeBytes, length_bcdDigits]
      exact if_neg ha
  · rw [exec_stm] at h
    obtain rfl | ⟨-, rfl⟩ := guarded_next h
    · rfl
    · rw [State.advance_mem, Memory.read_writeBytes, State.length_regsUpTo]
      exact if_neg ha

/-- Only a call writes a stack entry, and only the one at the depth (R24). -/
theorem exec_otherEntries {i : Instr} {s t : State} (h : exec i s = .next t) (k : Nat) (hk : ¬ i.WritesEntry s k) :
    t.stk[k]? = s.stk[k]? := by
  by_cases hs : Field.stk ∈ i.writes
  case neg => exact congrArg (fun st : Vector Word 16 => st[k]?) (exec_onlyWrites h .stk hs)
  obtain ⟨nnn, rfl⟩ := Instr.mem_writes_stk.mp hs
  obtain rfl | ⟨_, rfl⟩ := exec_call_next h
  · rfl
  · exact Vector.getElem?_set_ne ‹_› (Ne.symm hk)

/-- Settles O19: the write sets, with the registers, bytes and entries written, each by its own lemma. -/
theorem instructionsKeepToTheirWriteSets : Obligations.InstructionsKeepToTheirWriteSets :=
  fun _ _ _ h => ⟨(exec_onlyWrites h).onlyChanges, exec_otherRegs h, exec_otherBytes h, exec_otherEntries h⟩

end Sys2Proof.Machine
end

section
/-! PROOFS. What follows from the write sets alone: who writes `KEYS`, the timers, the wait latch and
the flag (spec/10_state.md R11, R17 to R19, R28). -/

namespace Sys2Proof.Machine

/-- A step that changes a piece of state other than the registers and the two latches ran an instruction
with that piece in its write set: neither the deferred load nor a fault can have changed it. -/
theorem step_changed {f : Field} {s t : State} (h : step s = .next t) (hc : ¬ f.Unchanged s t)
    (hf : f ∉ [Field.v, .wait, .fault]) : ∃ i, s.Fetches i ∧ exec i s = .next t ∧ f ∈ i.writes := by
  obtain ⟨-, rfl⟩ | ⟨-, rfl⟩ | ⟨r, -, rfl⟩ | ⟨i, hi, he⟩ := step_next h
  · exact absurd (.refl f _) hc
  · exact absurd (OnlyWrites.waitStep s f (by simp_all)) hc
  · exact absurd (OnlyWrites.withFault s _ f (by simp_all)) hc
  · exact ⟨i, hi, he, by_contra fun hm => hc (exec_onlyWrites he f hm)⟩

/-- Settles O18: no instruction has `KEYS` in its write set, and only `Fx15` and `Fx18` have a timer in
theirs. -/
theorem coreLeavesKeysAndTimers : Obligations.CoreLeavesKeysAndTimers := by
  intro s t h
  refine ⟨by_contra fun hc => ?_, fun hc => ?_, fun hc => ?_⟩
  · obtain ⟨i, -, -, hm⟩ := step_changed (f := .keys) h hc (by simp)
    exact i.keys_notMem_writes hm
  · obtain ⟨i, hi, -, hm⟩ := step_changed (f := .dt) h hc (by simp)
    obtain ⟨x, rfl⟩ := Instr.mem_writes_dt.mp hm
    exact ⟨x, hi⟩
  · obtain ⟨i, hi, -, hm⟩ := step_changed (f := .st) h hc (by simp)
    obtain ⟨x, rfl⟩ := Instr.mem_writes_st.mp hm
    exact ⟨x, hi⟩

/-- An instruction that changes the latch is `Fx0A`, and it records its register (R107). -/
theorem exec_wait_changed {i : Instr} {s t : State} (h : exec i s = .next t) (hc : t.wait ≠ s.wait) :
    i = .wkey t.waitx := by
  obtain ⟨x, rfl⟩ := Instr.mem_writes_wait.mp (by_contra fun hm => hc (exec_onlyWrites h .wait hm))
  cases h
  rfl

/-- A step that sets the latch ran `Fx0A` of the register it records. -/
theorem step_enters_wait {s t : State} (h : step s = .next t) (hs : s.wait = false) (ht : t.wait = true) :
    s.Fetches (.wkey t.waitx) := by
  obtain ⟨-, rfl⟩ | ⟨⟨-, hw⟩, -⟩ | ⟨f, -, rfl⟩ | ⟨i, hi, he⟩ := step_next h
  · simp [hs] at ht
  · simp [hs] at hw
  · simp [hs] at ht
  · exact exec_wait_changed he (by simp [hs, ht]) ▸ hi

/-- A step that clears the latch was a `WaitStep` with a key down. -/
theorem step_leaves_wait {s t : State} (h : step s = .next t) (hs : s.wait = true) (ht : t.wait = false) :
    s.keys ≠ 0 := by
  intro hk
  obtain ⟨-, rfl⟩ | ⟨-, rfl⟩ | ⟨f, ⟨-, hw⟩, -⟩ | ⟨i, ⟨⟨-, hw⟩, -⟩, -⟩ := step_next h
  · simp [hs] at ht
  · simp [waitStep_idle hk, hs] at ht
  · simp [hs] at hw
  · simp [hs] at hw

/-- Settles O21. -/
theorem waitEnteredByWkeyOnly : Obligations.WaitEnteredByWkeyOnly :=
  fun _ _ h => ⟨step_enters_wait h, step_leaves_wait h⟩

/-- A flag is the byte 0 or 1 (R11). -/
theorem flagByte_eq (f : Bool) : flagByte f = 0 ∨ flagByte f = 1 := by
  cases f
  · exact .inl rfl
  · exact .inr rfl

/-- A flag-writing instruction that sets no fault leaves a flag in `V[0xF]`, written last (R11, R86). -/
theorem exec_flag {i : Instr} {s t : State} (hi : i.SetsFlag) (h : exec i s = .next t) (ht : t.fault = none) :
    ∃ f, t.readV flagReg = flagByte f := by
  cases i with
  | add _ _ | sub _ _ | shr _ _ | subn _ _ | shl _ _ =>
    cases h
    exact ⟨_, (State.readV_setResultFlag _ _ flagReg _).trans (if_pos rfl)⟩
  | drw x y n =>
    rw [exec_drw] at h
    obtain rfl | ⟨-, rfl⟩ := guarded_next h
    · cases ht
    · exact ⟨_, (State.readV_setV _ _ flagReg _).trans (if_pos rfl)⟩
  | _ => exact hi.elim

/-- Settles O20. -/
theorem flagIsZeroOrOne : Obligations.FlagIsZeroOrOne := by
  intro i s t hi _ h ht
  obtain ⟨f, hf⟩ := exec_flag hi h ht
  exact hf ▸ flagByte_eq f

end Sys2Proof.Machine
end

section
/-! PROOFS. The machine's invariant (spec/10_state.md R25): it holds after reset and every event keeps
it. -/

namespace Sys2Proof.Machine

/-! ## Reset -/

/-- `Reset` from any state leaves the values of R27's table. -/
theorem hostReset_atReset (s : State) : (hostReset s).AtReset where
  v r := by simp [hostReset, State.reset, State.readV]
  pc := rfl
  i := rfl
  sp := rfl
  stk k hk := by simp [hostReset, State.reset, hk]
  mem := Memory.read_nil
  fb := Display.get_blank
  dt := rfl
  st := rfl
  keys := rfl
  wait := rfl
  waitx := rfl
  fault := rfl

/-- Settles O26: the state after reset is the one `Reset` makes of it. -/
theorem resetLeavesListedValues : Obligations.ResetLeavesListedValues :=
  ⟨hostReset_atReset State.reset, hostReset_atReset⟩

theorem hostReset_inv (s : State) : (hostReset s).Inv where
  memWf := Memory.wf_reset
  pcLe := by simp [hostReset, State.reset]
  stkLe k _ hlt := absurd hlt (Nat.not_lt_zero k)

/-- Settles O16. -/
theorem resetMeetsInv : Obligations.ResetMeetsInv := hostReset_inv State.reset

/-! ## The parts of the invariant after one instruction -/

/-- What writes none of the four pieces it speaks of keeps the invariant. -/
theorem State.Inv.of_onlyWrites {fs : List Field} {s t : State} (hs : s.Inv) (h : OnlyWrites fs s t)
    (hfs : ∀ f ∈ [Field.mem, .pc, .stk, .sp], f ∉ fs) : t.Inv := by
  have hmem : t.mem = s.mem := h .mem (hfs _ (by simp))
  have hpc : t.pc = s.pc := h .pc (hfs _ (by simp))
  have hstk : t.stk = s.stk := h .stk (hfs _ (by simp))
  have hsp : t.sp = s.sp := h .sp (hfs _ (by simp))
  exact ⟨hmem ▸ hs.memWf, hpc ▸ hs.pcLe, hstk ▸ hsp ▸ hs.stkLe⟩

/-- The two stores check their range first, so memory stays canonical (R33). -/
theorem exec_memWf {i : Instr} {s t : State} (h : exec i s = .next t) (hs : s.mem.wf = true) : t.mem.wf = true := by
  by_cases hm : Field.mem ∈ i.writes
  case neg => exact (exec_onlyWrites h .mem hm : t.mem = s.mem) ▸ hs
  obtain ⟨x, rfl | rfl⟩ := Instr.mem_writes_mem.mp hm
  · rw [exec_bcd] at h
    obtain rfl | ⟨hfit, rfl⟩ := guarded_next h
    · exact hs
    · exact Memory.wf_writeBytes (dataFits_le hfit (by simp)) hs
  · rw [exec_stm] at h
    obtain rfl | ⟨hfit, rfl⟩ := guarded_next h
    · exact hs
    · exact Memory.wf_writeBytes (by simpa using dataFits_le hfit (by simp)) hs

/-- Control goes on in place: it stays where it is, which is what a fault does (R124), or goes to the next
instruction (R46) or the one after it (R74). -/
def GoesOn (s t : State) : Prop := t.pc = s.pc ∨ t.pc = s.pc + 2 ∨ t.pc = s.pc + 4

theorem GoesOn.next {s t : State} (h : t.pc = s.pc + 2) : GoesOn s t := .inr (.inl h)

theorem GoesOn.skipIf (s : State) (c : Bool) : GoesOn s (s.skipIf c) := by
  rw [GoesOn, State.skipIf_pc]
  cases c
  · exact .inr (.inl rfl)
  · exact .inr (.inr rfl)

theorem GoesOn.of_guarded {ok : Bool} {r : FaultRecord} {s t u : State} (h : guarded ok r s u = .next t)
    (hu : GoesOn s u) : GoesOn s t := by
  obtain rfl | ⟨-, rfl⟩ := guarded_next h
  · exact .inl rfl
  · exact hu

/-- Where control can be after an instruction: gone on in place, at a 12-bit target, at such a target with
an offset, or at the top return address. -/
theorem exec_pc_cases {i : Instr} {s t : State} (h : exec i s = .next t) :
    GoesOn s t ∨ (∃ nnn, t.pc = addrWord nnn) ∨ (∃ nnn b, t.pc = addrWord nnn + byteWord b) ∨
    ∃ _ : s.sp.val ≠ 0, t.pc = s.stk[s.sp.val - 1]'(by omega) := by
  cases i with
  | cls | ldi _ _ | addi _ _ | mov _ _ | or _ _ | and _ _ | xor _ _ | add _ _ | sub _ _ | shr _ _ | subn _ _
  | shl _ _ | lda _ | rnd _ _ | lddt _ | wkey _ | stdt _ | stst _ | adda _ | font _ =>
    cases h
    exact .inl (.next rfl)
  | sei _ _ | snei _ _ | ser _ _ _ | sner _ _ _ =>
    cases h
    exact .inl (.skipIf s _)
  | skp x => exact .inl (.of_guarded (exec_skp x s ▸ h) (.skipIf s _))
  | sknp x => exact .inl (.of_guarded (exec_sknp x s ▸ h) (.skipIf s _))
  | drw x y n => exact .inl (.of_guarded (exec_drw x y n s ▸ h) (.next rfl))
  | bcd x => exact .inl (.of_guarded (exec_bcd x s ▸ h) (.next rfl))
  | stm x => exact .inl (.of_guarded (exec_stm x s ▸ h) (.next rfl))
  | ldm x => exact .inl (.of_guarded (exec_ldm x s ▸ h) (.next rfl))
  | jp nnn =>
    cases h
    exact .inr (.inl ⟨nnn, rfl⟩)
  | jpv0 nnn =>
    cases h
    exact .inr (.inr (.inl ⟨nnn, s.readV 0, rfl⟩))
  | call nnn =>
    obtain rfl | ⟨-, rfl⟩ := exec_call_next h
    · exact .inl (.inl rfl)
    · exact .inr (.inl ⟨nnn, rfl⟩)
  | ret =>
    obtain rfl | ⟨hsp, rfl⟩ := exec_ret_next h
    · exact .inl (.inl rfl)
    · exact .inr (.inr (.inr ⟨hsp, rfl⟩))

/-- A `pc` from which something was fetched leads to one of at most 0x10FE = 0xFFF + 0xFF, the return
addresses being at most 0x1000 (R25). -/
theorem exec_pcLe {i : Instr} {s t : State} (h : exec i s = .next t) (hs : s.Inv) (hpc : s.pc.toNat ≤ 0xFFE) :
    t.pc.toNat ≤ 0x10FE := by
  obtain (hp | hp | hp) | ⟨nnn, hp⟩ | ⟨nnn, b, hp⟩ | ⟨hsp, hp⟩ := exec_pc_cases h <;> rw [hp]
  · omega
  · bv_omega
  · bv_omega
  · rw [toNat_addrWord]
    omega
  · rw [BitVec.toNat_add, toNat_addrWord, toNat_byteWord]
    omega
  · have := hs.stkLe (s.sp.val - 1) (by omega) (by omega)
    omega

/-- The only address a call pushes is that of the instruction after it, at most 0x1000, and a return
uncovers no entry (R25). -/
theorem exec_stkLe {i : Instr} {s t : State} (h : exec i s = .next t) (hs : s.Inv) (hpc : s.pc.toNat ≤ 0xFFE)
    (k : Nat) (hk : k < 16) (hlt : k < t.sp.val) : (t.stk[k]).toNat ≤ 0x1000 := by
  by_cases hsp : Field.sp ∈ i.writes
  · obtain rfl | ⟨nnn, rfl⟩ := Instr.mem_writes_sp.mp hsp
    · obtain rfl | ⟨_, rfl⟩ := exec_ret_next h
      · exact hs.stkLe k hk hlt
      · exact hs.stkLe k hk (Nat.lt_of_lt_of_le hlt (Nat.sub_le _ _))
    · obtain rfl | ⟨_, rfl⟩ := exec_call_next h
      · exact hs.stkLe k hk hlt
      · have hlt : k < s.sp.val + 1 := hlt
        have hnpc : s.npc.toNat ≤ 0x1000 := by
          rw [State.npc]
          bv_omega
        simp only [State.setPc_stk, Vector.getElem_set]
        split
        · exact hnpc
        · exact hs.stkLe k hk (by omega)
  · have hstk : Field.stk ∉ i.writes := fun hm => hsp (Instr.mem_writes_sp.mpr (.inr (Instr.mem_writes_stk.mp hm)))
    have htsp : t.sp = s.sp := exec_onlyWrites h .sp hsp
    have htstk : t.stk = s.stk := exec_onlyWrites h .stk hstk
    exact (htstk ▸ htsp ▸ hs.stkLe : ∀ k (h : k < 16), k < t.sp.val → (t.stk[k]).toNat ≤ 0x1000) k hk hlt

theorem exec_inv {i : Instr} {s t : State} (h : exec i s = .next t) (hs : s.Inv) (hpc : s.pc.toNat ≤ 0xFFE) : t.Inv :=
  ⟨exec_memWf h hs.memWf, exec_pcLe h hs hpc, exec_stkLe h hs hpc⟩

/-! ## Every event keeps the invariant -/

/-- Settles O15: a step does nothing, loads a register, sets the latch, or runs an instruction fetched at
a `pc` of at most 0xFFE. -/
theorem stepKeepsInv : Obligations.StepKeepsInv := by
  intro s t hs h
  obtain ⟨-, rfl⟩ | ⟨-, rfl⟩ | ⟨f, -, rfl⟩ | ⟨i, hi, he⟩ := step_next h
  · exact hs
  · exact hs.of_onlyWrites (.waitStep s) (by simp)
  · exact hs.of_onlyWrites (.withFault s _) (by simp)
  · exact exec_inv he hs hi.pc_le

theorem hostLoad_inv (p : List Byte) {s : State} (hs : s.Inv) : (hostLoad p s).1.Inv := by
  refine ⟨hostLoad_wf p hs.memWf, ?_, ?_⟩ <;> unfold hostLoad <;> split
  · exact hs.pcLe
  · exact (by decide : (0x200 : Word).toNat ≤ 0x10FE)
  · exact hs.stkLe
  · exact hs.stkLe

theorem applyEvent_inv {e : Event} {s t : State} (h : applyEvent e s = .next t) (hs : s.Inv) : t.Inv := by
  cases e with
  | step => exact stepKeepsInv s t hs h
  | keyWrite m =>
    cases h
    exact hs.of_onlyWrites (.keyWrite m s) (by simp)
  | timerTick =>
    cases h
    exact hs.of_onlyWrites (.timerTick s) (by simp)
  | load p =>
    cases h
    exact hostLoad_inv p hs
  | reset =>
    cases h
    exact hostReset_inv s

/-- Settles O17, by induction on how the state was reached. -/
theorem reachableStatesMeetInv : Obligations.ReachableStatesMeetInv := by
  intro s h
  induction h with
  | launch => exact resetMeetsInv
  | next e _ he ih => exact applyEvent_inv he ih

end Sys2Proof.Machine
end

section
/-! PROOFS. A stack entry at or above the depth is unobservable (spec/10_state.md R14): the simulation
between two states that differ in nothing else, event by event. -/

namespace Sys2Proof.Machine

/-- The state with other stack entries. -/
def State.withStk (s : State) (st : Vector Word 16) : State := { s with stk := st }

/-- The two states differ in stale entries alone: the second is the first with other entries, the valid
ones the same. -/
theorem sameButStale_iff {s s' : State} :
    SameButStale s s' ↔ ∃ st, s' = s.withStk st ∧ ∀ k, k < s.sp.val → st[k]? = s.stk[k]? := by
  constructor
  · rintro ⟨he, hk⟩
    exact ⟨s'.stk, he, hk⟩
  · rintro ⟨st, rfl, hk⟩
    exact ⟨rfl, hk⟩

theorem SameButStale.refl (s : State) : SameButStale s s := ⟨rfl, fun _ _ => rfl⟩

/-- An update that reads no entry, and writes neither entries nor depth, keeps the difference stale. -/
theorem SameButStale.of_onlyWrites {fs : List Field} {s t : State} {st : Vector Word 16} (h : OnlyWrites fs s t)
    (hstk : .stk ∉ fs) (hsp : .sp ∉ fs) (hk : ∀ k, k < s.sp.val → st[k]? = s.stk[k]?) :
    SameButStale t (t.withStk st) := by
  have htstk : t.stk = s.stk := h .stk hstk
  have htsp : t.sp = s.sp := h .sp hsp
  exact ⟨rfl, htstk ▸ htsp ▸ hk⟩

/-! ## Instructions -/

theorem guarded_withStk {ok : Bool} {r : FaultRecord} {s t u : State} (st : Vector Word 16)
    (h : guarded ok r s u = .next t) : guarded ok r (s.withStk st) (u.withStk st) = .next (t.withStk st) := by
  cases ok <;> cases h <;> rfl

/-- An instruction that does not move the depth reads no stack entry and writes none: it does the same
whatever they are. -/
theorem exec_withStk {i : Instr} {s t : State} (st : Vector Word 16) (hsp : .sp ∉ i.writes)
    (h : exec i s = .next t) : exec i (s.withStk st) = .next (t.withStk st) := by
  cases i with
  | ret | call _ => simp [Instr.writes] at hsp
  | skp x => exact (exec_skp x _).trans (guarded_withStk st (exec_skp x s ▸ h))
  | sknp x => exact (exec_sknp x _).trans (guarded_withStk st (exec_sknp x s ▸ h))
  | drw x y n => exact (exec_drw x y n _).trans (guarded_withStk st (exec_drw x y n s ▸ h))
  | bcd x => exact (exec_bcd x _).trans (guarded_withStk st (exec_bcd x s ▸ h))
  | stm x => exact (exec_stm x _).trans (guarded_withStk st (exec_stm x s ▸ h))
  | ldm x => exact (exec_ldm x _).trans (guarded_withStk st (exec_ldm x s ▸ h))
  | _ =>
    cases h
    rfl

/-- A return reads the top entry, which is valid, and leaves one valid entry fewer (R61). -/
theorem exec_ret_sameButStale {s s' t : State} (hs : SameButStale s s') (h : exec .ret s = .next t) :
    ∃ t', exec .ret s' = .next t' ∧ SameButStale t t' := by
  obtain ⟨st, rfl, hk⟩ := sameButStale_iff.mp hs
  by_cases hsp : s.sp.val = 0
  · rw [exec_ret_empty hsp] at h
    cases h
    exact ⟨_, exec_ret_empty (s := s.withStk st) hsp, rfl, hk⟩
  · rw [exec_ret_pop hsp] at h
    cases h
    refine ⟨_, exec_ret_pop (s := s.withStk st) hsp, ?_,
      fun k hlt => hk k (Nat.lt_of_lt_of_le hlt (Nat.sub_le _ _))⟩
    have htop : st[s.sp.val - 1]'(by omega) = s.stk[s.sp.val - 1]'(by omega) := by
      simpa [show s.sp.val - 1 < 16 by omega] using hk (s.sp.val - 1) (by omega)
    simp [State.withStk, State.setPc, htop]

/-- A call overwrites the one stale entry it makes valid (R64). -/
theorem exec_call_sameButStale {nnn : Addr12} {s s' t : State} (hs : SameButStale s s')
    (h : exec (.call nnn) s = .next t) : ∃ t', exec (.call nnn) s' = .next t' ∧ SameButStale t t' := by
  obtain ⟨st, rfl, hk⟩ := sameButStale_iff.mp hs
  by_cases hsp : s.sp.val < 16
  · rw [exec_call_push nnn hsp] at h
    cases h
    refine ⟨_, exec_call_push (s := s.withStk st) nnn hsp, rfl, fun k hlt => ?_⟩
    have hlt : k < s.sp.val + 1 := hlt
    show (st.set s.sp.val s.npc hsp)[k]? = (s.stk.set s.sp.val s.npc hsp)[k]?
    rw [Vector.getElem?_set, Vector.getElem?_set]
    split
    · rfl
    · exact hk k (by omega)
  · have hfull : s.sp.val = 16 := by omega
    rw [exec_call_full nnn hfull] at h
    cases h
    exact ⟨_, exec_call_full (s := s.withStk st) nnn hfull, rfl, hk⟩

theorem exec_sameButStale {i : Instr} {s s' t : State} (hs : SameButStale s s') (h : exec i s = .next t) :
    ∃ t', exec i s' = .next t' ∧ SameButStale t t' := by
  by_cases hsp : Field.sp ∈ i.writes
  · obtain rfl | ⟨nnn, rfl⟩ := Instr.mem_writes_sp.mp hsp
    · exact exec_ret_sameButStale hs h
    · exact exec_call_sameButStale hs h
  · obtain ⟨st, rfl, hk⟩ := sameButStale_iff.mp hs
    have hstk : Field.stk ∉ i.writes := fun hm => hsp (Instr.mem_writes_sp.mpr (.inr (Instr.mem_writes_stk.mp hm)))
    exact ⟨_, exec_withStk st hsp h, .of_onlyWrites (exec_onlyWrites h) hstk hsp hk⟩

/-! ## Steps, events and schedules -/

theorem waitStep_withStk (s : State) (st : Vector Word 16) : waitStep (s.withStk st) = (waitStep s).withStk st := by
  by_cases hk : s.keys = 0
  · rw [waitStep_idle hk, waitStep_idle (s := s.withStk st) hk]
  · rw [waitStep_load hk, waitStep_load (s := s.withStk st) hk]
    rfl

/-- The two states take the same branch of the step: the branch depends on no stack entry. -/
theorem step_sameButStale {s s' t : State} (hs : SameButStale s s') (h : step s = .next t) :
    ∃ t', step s' = .next t' ∧ SameButStale t t' := by
  obtain ⟨st, rfl, hk⟩ := sameButStale_iff.mp hs
  obtain ⟨hf, he⟩ | ⟨ha, he⟩ | ⟨hr, hw, he⟩ | ⟨w, e, hr, hw, hd, he⟩ | ⟨w, i, hr, hw, hd, he⟩ :=
    step_cases s <;> rw [he] at h
  · cases h
    exact ⟨_, step_faulted (s := s.withStk st) hf, rfl, hk⟩
  · cases h
    refine ⟨_, step_awaiting (s := s.withStk st) ha, ?_⟩
    rw [waitStep_withStk]
    exact .of_onlyWrites (.waitStep s) (by simp) (by simp) hk
  · cases h
    exact ⟨_, step_fetch_fault (s := s.withStk st) hr hw, rfl, hk⟩
  · cases h
    exact ⟨_, step_decode_fault (s := s.withStk st) hr hw hd, rfl, hk⟩
  · rw [step_decoded (s := s.withStk st) hr hw hd]
    exact exec_sameButStale hs h

theorem hostLoad_sameButStale (p : List Byte) {s s' : State} (hs : SameButStale s s') :
    SameButStale (hostLoad p s).1 (hostLoad p s').1 := by
  obtain ⟨st, rfl, hk⟩ := sameButStale_iff.mp hs
  unfold hostLoad
  split
  · exact hs
  · exact ⟨rfl, hk⟩

theorem applyEvent_sameButStale {e : Event} {s s' t : State} (hs : SameButStale s s')
    (h : applyEvent e s = .next t) : ∃ t', applyEvent e s' = .next t' ∧ SameButStale t t' := by
  cases e with
  | step => exact step_sameButStale hs h
  | load p =>
    cases h
    exact ⟨_, rfl, hostLoad_sameButStale p hs⟩
  | keyWrite _ | timerTick =>
    obtain ⟨st, rfl, hk⟩ := sameButStale_iff.mp hs
    cases h
    exact ⟨_, rfl, rfl, hk⟩
  | reset =>
    obtain ⟨st, rfl, -⟩ := sameButStale_iff.mp hs
    cases h
    exact ⟨_, rfl, .refl _⟩

/-- A schedule that answers a next state answered one for its first event (R38). -/
theorem runEvents_cons {e : Event} {es : List Event} {s u : State} :
    runEvents (e :: es) s = .next u ↔ ∃ t, applyEvent e s = .next t ∧ runEvents es t = .next u := by
  rw [runEvents]
  cases applyEvent e s <;> simp

/-- Settles O24, by induction on the schedule. -/
theorem staleStackEntriesUnobservable : Obligations.StaleStackEntriesUnobservable := by
  intro es
  induction es with
  | nil =>
    intro s s' t hs h
    cases h
    exact ⟨s', rfl, hs⟩
  | cons e es ih =>
    intro s s' u hs h
    obtain ⟨t, he, hrun⟩ := runEvents_cons.mp h
    obtain ⟨t', he', ht⟩ := applyEvent_sameButStale hs he
    obtain ⟨u', hrun', hu⟩ := ih t t' u ht hrun
    exact ⟨u', runEvents_cons.mpr ⟨t', he', hrun'⟩, hu⟩

end Sys2Proof.Machine
end

section
/-! PROOFS. Memory as the fetch sees it (spec/20_memory.md): the word is big-endian (R31, R32), and a
store is seen by the very next fetch (R40). -/

namespace Sys2Proof.Machine

/-! ## The word of two bytes (R31) -/

/-- The byte at the lower address is the more significant one (R31). -/
theorem toNat_joinWord (hi lo : Byte) : (joinWord hi lo).toNat = hi.toNat * 256 + lo.toNat := by
  have happend : joinWord hi lo = hi ++ lo := by
    rw [BitVec.append_def, BitVec.shiftLeftZeroExtend_eq, BitVec.setWidth'_eq, joinWord]
  rw [happend, BitVec.toNat_append, ← Nat.shiftLeft_add_eq_or_of_lt lo.isLt, Nat.shiftLeft_eq]

/-- A word of the value the two bytes at `pc` have together is the word fetched (R31, R32). -/
theorem State.fetchWord_of_toNat {s : State} {w : Word} (hpc : s.pc.toNat ≤ 0xFFE)
    (hw : w.toNat = (s.mem.read s.pc.toNat).toNat * 256 + (s.mem.read (s.pc.toNat + 1)).toNat) :
    s.fetchWord = some w := by
  rw [State.fetchWord_some hpc, BitVec.eq_of_toNat_eq (hw.trans (toNat_joinWord _ _).symm)]

/-- Settles O6: the three ways a Running core's step can go, each by its own lemma. -/
theorem stepFetchesBigEndian : Obligations.StepFetchesBigEndian := by
  intro s hr
  refine ⟨fun hpc => step_fetch_fault hr (State.fetchWord_none.mpr hpc), fun hpc w hw => ?_⟩
  have hfetch : s.fetchWord = some w := State.fetchWord_of_toNat hpc hw
  exact ⟨fun _ hd => step_decoded hr hfetch hd, fun _ hd => step_decode_fault hr hfetch hd⟩

/-! ## The block store (R114) -/

/-- A core that fetches an instruction runs it (R46). -/
theorem State.Fetches.step_eq {s : State} {i : Instr} (h : s.Fetches i) : step s = exec i s := by
  obtain ⟨hr, w, hw, hd⟩ := h
  exact step_decoded hr hw hd

/-- A `Fx55` whose block lies in memory completes (R114). -/
theorem exec_stm_fits {x : Reg} {s : State} (h : s.i.toNat + x.val ≤ 0xFFF) :
    exec (.stm x) s = .next { s with mem := s.mem.writeBytes s.i.toNat (s.regsUpTo x) }.advance := by
  rw [exec_stm, guarded, if_pos ((dataFits_iff _ _).mpr (.inr h))]

/-- Each register of a stored block is found at its place from the base up (R114). -/
theorem Memory.read_writeBytes_regsUpTo (m : Memory) (base : Nat) (s : State) {x r : Reg} (h : r ≤ x) :
    (m.writeBytes base (s.regsUpTo x)).read (base + r.val) = s.readV r := by
  have hr : r.val ≤ x.val := h
  rw [Memory.read_writeBytes, State.length_regsUpTo, if_pos (by omega), Nat.add_sub_cancel_left,
    State.getD_regsUpTo s x r h]

/-- After an instruction that goes on to the next one, the fetch is of the two bytes after it (R31, R46). -/
theorem State.fetchWord_advance {s : State} (h : s.pc.toNat + 2 ≤ 0xFFE) :
    s.advance.fetchWord = some (joinWord (s.mem.read (s.pc.toNat + 2)) (s.mem.read (s.pc.toNat + 3))) := by
  have hpc : s.advance.pc.toNat = s.pc.toNat + 2 := by
    rw [State.advance_pc]
    bv_omega
  rw [State.fetchWord_some (hpc ▸ h), hpc, State.advance_mem]

/-- Settles O58: the store completes, and `pc` goes on to two of the bytes it wrote, each of which holds
its register. -/
theorem storedCodeIsFetchedNext : Obligations.StoredCodeIsFetchedNext := by
  intro x a b s hs hfit ha hb hia hib
  refine ⟨_, hs.step_eq.trans (exec_stm_fits hfit), hs.1, ?_⟩
  have hpc : s.pc.toNat + 2 ≤ 0xFFE := by
    have hbx : b.val ≤ x.val := hb
    omega
  rw [State.fetchWord_advance, ← hia, ← hib, Memory.read_writeBytes_regsUpTo _ _ s ha,
    Memory.read_writeBytes_regsUpTo _ _ s hb]
  exact hpc

end Sys2Proof.Machine
end

section
/-! PROOFS. The round trips between words and instructions (spec/30_encoding.md R47 to R51): each family of
the decoder against the format of the encoder, and the rows of the opcode map as what both agree on. -/

namespace Sys2Proof

open Machine

/-! ## When a word is the encoding, in a format, of its own fields (R48) -/

theorem encNNN_fieldNNN_iff {w : Word} {op : BitVec 4} : encNNN op (fieldNNN w) = w ↔ fieldOp w = op := by
  constructor
  · intro h
    rw [← h, fieldOp_encNNN]
  · rintro rfl
    exact encNNN_fields w

theorem encXNN_fieldX_iff {w : Word} {op : BitVec 4} {nn : Byte} :
    encXNN op (fieldX w) nn = w ↔ fieldOp w = op ∧ fieldNN w = nn := by
  constructor
  · intro h
    rw [← h, fieldOp_encXNN, fieldNN_encXNN]
    exact ⟨rfl, rfl⟩
  · rintro ⟨rfl, rfl⟩
    exact encXNN_fields w

theorem encXYN_fieldXY_iff {w : Word} {op : BitVec 4} {n : Nibble} :
    encXYN op (fieldX w) (fieldY w) n = w ↔ fieldOp w = op ∧ fieldN w = n := by
  constructor
  · intro h
    rw [← h, fieldOp_encXYN, fieldN_encXYN]
    exact ⟨rfl, rfl⟩
  · rintro ⟨rfl, rfl⟩
    exact encXYN_fields w

/-! ## Decode, then encode -/

theorem encode_of_decodeFamily0 {w : Word} {i : Instr} (h : decodeFamily0 w = .ok i) : encode i = w := by
  unfold decodeFamily0 at h
  split_ifs at h with hcls hret <;> cases h
  · exact hcls.symm
  · exact hret.symm

theorem encode_of_decodeFamily8 {w : Word} {i : Instr} (hop : fieldOp w = 0x8) (h : decodeFamily8 w = .ok i) :
    encode i = w := by
  unfold decodeFamily8 at h
  split at h <;> cases h
  all_goals exact encXYN_fieldXY_iff.mpr ⟨hop, Fin.ext ‹(fieldN w).val = _›⟩

theorem encode_of_decodeFamilyE {w : Word} {i : Instr} (hop : fieldOp w = 0xE) (h : decodeFamilyE w = .ok i) :
    encode i = w := by
  unfold decodeFamilyE at h
  split at h <;> cases h
  all_goals exact encXNN_fieldX_iff.mpr ⟨hop, BitVec.eq_of_toNat_eq ‹(fieldNN w).toNat = _›⟩

theorem encode_of_decodeFamilyF {w : Word} {i : Instr} (hop : fieldOp w = 0xF) (h : decodeFamilyF w = .ok i) :
    encode i = w := by
  unfold decodeFamilyF at h
  split at h <;> cases h
  all_goals exact encXNN_fieldX_iff.mpr ⟨hop, BitVec.eq_of_toNat_eq ‹(fieldNN w).toNat = _›⟩

/-- Settles O2: the branches `h_1` to `h_16` of the decoder are the families 0x0 to 0xF; a family with one
instruction is one format. -/
theorem encodeOfDecode : Obligations.EncodeOfDecode := by
  intro w i h
  unfold decodeWord at h
  split at h
  case h_1 => exact encode_of_decodeFamily0 h
  case h_9 hop => exact encode_of_decodeFamily8 (BitVec.eq_of_toNat_eq hop) h
  case h_15 hop => exact encode_of_decodeFamilyE (BitVec.eq_of_toNat_eq hop) h
  case h_16 =>
    have hop : (fieldOp w).toNat = 0xF := by
      simp only [imp_false] at *
      omega
    exact encode_of_decodeFamilyF (BitVec.eq_of_toNat_eq hop) h
  case h_2 hop | h_3 hop | h_11 hop | h_12 hop =>
    cases h
    exact encNNN_fieldNNN_iff.mpr (BitVec.eq_of_toNat_eq hop)
  case h_4 hop | h_5 hop | h_7 hop | h_8 hop | h_13 hop =>
    cases h
    exact encXNN_fieldX_iff.mpr ⟨BitVec.eq_of_toNat_eq hop, rfl⟩
  case h_6 hop | h_10 hop | h_14 hop =>
    cases h
    exact encXYN_fieldXY_iff.mpr ⟨BitVec.eq_of_toNat_eq hop, rfl⟩

/-! ## Encode, then decode -/

/-- Settles O1: every field of an encoded word is the one put in (the `simp` lemmas of Laws/Encoding.lean),
so the decoder selects the branch the encoder wrote; the families 0x8, 0xE and 0xF select a second time. -/
theorem decodeOfEncode : Obligations.DecodeOfEncode := by
  intro i
  cases i with
  | cls | ret => rfl
  | jp _ | call _ | lda _ | jpv0 _ | sei _ _ | snei _ _ | ldi _ _ | addi _ _ | rnd _ _ | ser _ _ _ | sner _ _ _
  | drw _ _ _ => simp [encode, decodeWord]
  | mov _ _ | or _ _ | and _ _ | xor _ _ | add _ _ | sub _ _ | shr _ _ | subn _ _ | shl _ _ =>
    simp [encode, decodeWord, decodeFamily8]
  | skp _ | sknp _ => simp [encode, decodeWord, decodeFamilyE]
  | lddt _ | wkey _ | stdt _ | stst _ | adda _ | font _ | bcd _ | stm _ | ldm _ =>
    simp [encode, decodeWord, decodeFamilyF]

/-- The two round trips together: decoding and encoding are inverse to each other. -/
theorem decodeWord_eq_ok_iff {w : Word} {i : Instr} : decodeWord w = .ok i ↔ encode i = w := by
  constructor
  · exact encodeOfDecode w i
  · rintro rfl
    exact decodeOfEncode i

/-! ## The rows of the opcode map (R50) -/

/-- The instruction of the same row whose operands are the fields of `w` (R47). -/
def Instr.withFields : Instr → Word → Instr
  | .cls, _ => .cls
  | .ret, _ => .ret
  | .jp _, w => .jp (fieldNNN w)
  | .call _, w => .call (fieldNNN w)
  | .sei _ _, w => .sei (fieldX w) (fieldNN w)
  | .snei _ _, w => .snei (fieldX w) (fieldNN w)
  | .ser _ _ _, w => .ser (fieldX w) (fieldY w) (fieldN w)
  | .ldi _ _, w => .ldi (fieldX w) (fieldNN w)
  | .addi _ _, w => .addi (fieldX w) (fieldNN w)
  | .mov _ _, w => .mov (fieldX w) (fieldY w)
  | .or _ _, w => .or (fieldX w) (fieldY w)
  | .and _ _, w => .and (fieldX w) (fieldY w)
  | .xor _ _, w => .xor (fieldX w) (fieldY w)
  | .add _ _, w => .add (fieldX w) (fieldY w)
  | .sub _ _, w => .sub (fieldX w) (fieldY w)
  | .shr _ _, w => .shr (fieldX w) (fieldY w)
  | .subn _ _, w => .subn (fieldX w) (fieldY w)
  | .shl _ _, w => .shl (fieldX w) (fieldY w)
  | .sner _ _ _, w => .sner (fieldX w) (fieldY w) (fieldN w)
  | .lda _, w => .lda (fieldNNN w)
  | .jpv0 _, w => .jpv0 (fieldNNN w)
  | .rnd _ _, w => .rnd (fieldX w) (fieldNN w)
  | .drw _ _ _, w => .drw (fieldX w) (fieldY w) (fieldN w)
  | .skp _, w => .skp (fieldX w)
  | .sknp _, w => .sknp (fieldX w)
  | .lddt _, w => .lddt (fieldX w)
  | .wkey _, w => .wkey (fieldX w)
  | .stdt _, w => .stdt (fieldX w)
  | .stst _, w => .stst (fieldX w)
  | .adda _, w => .adda (fieldX w)
  | .font _, w => .font (fieldX w)
  | .bcd _, w => .bcd (fieldX w)
  | .stm _, w => .stm (fieldX w)
  | .ldm _, w => .ldm (fieldX w)

theorem Instr.row_withFields (i : Instr) (w : Word) : (i.withFields w).row = i.row := by
  cases i <;> rfl

theorem Instr.withFields_encode (i : Instr) : i.withFields (encode i) = i := by
  cases i <;> simp [withFields, encode]

/-- A word is the encoding of its own fields, read as a row, exactly when it passes the row's mask: the
mask leaves out the bits of the operands alone. -/
theorem encode_withFields_iff (i : Instr) (w : Word) :
    encode (i.withFields w) = w ↔ w &&& i.row.mask = i.row.pattern := by
  cases i with
  | cls | ret =>
    have hall : w &&& 0xFFFF#16 = w := BitVec.and_allOnes
    exact eq_comm.trans (Eq.congr_left hall.symm)
  | jp _ | call _ | lda _ | jpv0 _ => exact encNNN_fieldNNN_iff.trans (mask_op w _).symm
  | sei _ _ | snei _ _ | ldi _ _ | addi _ _ | rnd _ _ =>
    exact (encXNN_fieldX_iff.trans (and_iff_left rfl)).trans (mask_op w _).symm
  | ser _ _ _ | sner _ _ _ | drw _ _ _ =>
    exact (encXYN_fieldXY_iff.trans (and_iff_left rfl)).trans (mask_op w _).symm
  | mov _ _ | or _ _ | and _ _ | xor _ _ | add _ _ | sub _ _ | shr _ _ | subn _ _ | shl _ _ =>
    exact encXYN_fieldXY_iff.trans (mask_op_n w _ _).symm
  | skp _ | sknp _ | lddt _ | wkey _ | stdt _ | stst _ | adda _ | font _ | bcd _ | stm _ | ldm _ =>
    exact encXNN_fieldX_iff.trans (mask_op_nn w _ _).symm

/-- A word passes the mask of a row exactly when it decodes to the instruction of that row with the
fields of the word as its operands (R47, R50). -/
theorem Instr.encodedAs (i : Instr) : EncodedAs i.row.mask i.row.pattern i.withFields :=
  fun w => (encode_withFields_iff i w).symm.trans decodeWord_eq_ok_iff.symm

/-- An instruction decoded has the fields of its word as its operands (R47). -/
theorem Instr.withFields_of_decode {w : Word} {i : Instr} (h : decodeWord w = .ok i) : i.withFields w = i := by
  rw [← decodeWord_eq_ok_iff.mp h, withFields_encode]

/-- Settles O4: what a word decodes to is the instruction of its row with the fields of the word. -/
theorem opcodeRowsAgreeWithDecoder : Obligations.OpcodeRowsAgreeWithDecoder := by
  intro w r hr
  obtain ⟨j, -, rfl⟩ := List.mem_map.mp hr
  constructor
  · intro hmask
    exact ⟨j.withFields w, (j.encodedAs w).mp hmask, j.row_withFields w⟩
  · rintro ⟨i, hd, hrow⟩
    have hfields : decodeWord w = .ok (i.withFields w) := by rw [Instr.withFields_of_decode hd, hd]
    rw [← hrow]
    exact (i.encodedAs w).mpr hfields

end Sys2Proof
end

section
/-! PROOFS. The decoded instruction is what a step runs (spec/30_encoding.md R46). -/

namespace Sys2Proof.Machine

/-- The decoder on two bytes is the decoder on the word they make (R31, R45). -/
theorem decodeBytes_pair_iff {hi lo : Byte} {i : Instr} :
    decodeBytes [hi, lo] = .ok (i, []) ↔ decodeWord (joinWord hi lo) = .ok i := by
  rw [decodeBytes]
  cases decodeWord (joinWord hi lo) <;> simp

theorem decodeTableWord_iff {nbits w : Nat} {i : Instr} :
    decodeTableWord nbits w = some i ↔ decodeWord (tableWord nbits w) = .ok i := by
  simp only [decodeTableWord, wordBytes, decodeBytes, joinWord_bytes]
  cases decodeWord (tableWord nbits w) <;> simp

/-- Settles O7: the two bytes at `pc` are the word fetched. -/
theorem stepRunsDecodedInstruction : Obligations.StepRunsDecodedInstruction := by
  intro s i hr hpc hd
  exact step_decoded hr (State.fetchWord_some hpc) (decodeBytes_pair_iff.mp hd)

/-- A placed word leaves the core Running: both latches are cleared. -/
theorem State.running_placeWord (s : State) (w : Word) : (s.placeWord w).Running := ⟨rfl, rfl⟩

/-- Settles O8: the word placed is the word the Running core fetches. -/
theorem placedWordRunsNext : Obligations.PlacedWordRunsNext := by
  intro s w i hd
  exact step_decoded (s.running_placeWord _) (s.fetchWord_placeWord _) (decodeTableWord_iff.mp hd)

end Sys2Proof.Machine
end

section
/-! PROOFS. The illegal words (spec/30_encoding.md R52, R62): the families that have some, each against its
part of the decoder; and the words the spec writes out. -/

namespace Sys2Proof

open Machine

/-! ## What each family with illegal words rejects (R52's table) -/

theorem decodeFamily0_rejects_iff {w : Word} :
    (∃ e, decodeFamily0 w = .error e) ↔ w ≠ 0x00E0 ∧ w ≠ 0x00EE := by
  unfold decodeFamily0
  split_ifs with hcls hret
  · simp [hcls]
  · simp [hret]
  · simp [hcls, hret]

/-- The branch `h_10` of the decoder is the one for the nibbles the family does not use. -/
theorem decodeFamily8_rejects_iff {w : Word} :
    (∃ e, decodeFamily8 w = .error e) ↔ w.toNat % 16 ∈ [0x8, 0x9, 0xA, 0xB, 0xC, 0xD, 0xF] := by
  have hlt : (fieldN w).val < 16 := (fieldN w).isLt
  rw [← fieldN_val]
  unfold decodeFamily8
  split
  case h_10 =>
    refine iff_of_true ⟨_, rfl⟩ ?_
    simp only [imp_false, List.mem_cons, List.not_mem_nil, or_false] at *
    omega
  all_goals simp [*]

theorem decodeFamilyE_rejects_iff {w : Word} :
    (∃ e, decodeFamilyE w = .error e) ↔ w.toNat % 256 ∉ [0x9E, 0xA1] := by
  rw [← fieldNN_toNat]
  unfold decodeFamilyE
  split
  case h_3 => simp_all
  all_goals simp [*]

theorem decodeFamilyF_rejects_iff {w : Word} :
    (∃ e, decodeFamilyF w = .error e) ↔
      w.toNat % 256 ∉ [0x07, 0x0A, 0x15, 0x18, 0x1E, 0x29, 0x33, 0x55, 0x65] := by
  rw [← fieldNN_toNat]
  unfold decodeFamilyF
  split
  case h_10 => simp_all
  all_goals simp [*]

/-! ## What the decoder rejects -/

/-- The families 0x0, 0x8, 0xE and 0xF are the branches `h_1`, `h_9`, `h_15` and `h_16` of the decoder; every
other branch accepts each word of its family. -/
theorem decodeWord_rejects_iff {w : Word} : (∃ e, decodeWord w = .error e) ↔ IllegalWord w := by
  unfold IllegalWord
  rw [← fieldOp_toNat]
  unfold decodeWord
  split
  case h_1 hop => simp [hop, decodeFamily0_rejects_iff]
  case h_9 hop => simp [hop, decodeFamily8_rejects_iff]
  case h_15 hop => simp [hop, decodeFamilyE_rejects_iff]
  case h_16 =>
    have hop : (fieldOp w).toNat = 0xF := by
      simp only [imp_false] at *
      omega
    simp [hop, decodeFamilyF_rejects_iff]
  all_goals simp [*]

/-- Settles O3: the decoder rejects the illegal words alone, and a fetched word it rejects raises its
fault. -/
theorem illegalWordsRaiseDecodeError : Obligations.IllegalWordsRaiseDecodeError := by
  refine ⟨fun w => decodeWord_rejects_iff, fun s w hr hfetch hw => ?_⟩
  obtain ⟨e, hd⟩ := decodeWord_rejects_iff.mpr hw
  exact step_decode_fault hr hfetch hd

/-- Settles O5: each word is the encoding of the instruction the spec names. -/
theorem spelledWordsDecode : Obligations.SpelledWordsDecode := by
  simp only [Obligations.SpelledWordsDecode, decodeWord_eq_ok_iff]
  decide

end Sys2Proof
end

section
/-! PROOFS. Clear display, jump, call and return (spec/40_family0_jump_call.md R60, R61, R63, R64), and calls
nested with as many returns (R65). -/

namespace Sys2Proof.Machine

/-- Settles O31. -/
theorem clsClearsDisplay : Obligations.ClsClearsDisplay :=
  ⟨Instr.encodedAs .cls, fun s =>
    ⟨_, rfl, Display.get_blank, rfl, ((OnlyWrites.withFb s _).trans (.advance _)).onlyChanges⟩⟩

/-- Settles O33. -/
theorem jpJumps : Obligations.JpJumps :=
  ⟨Instr.encodedAs (.jp 0), fun nnn s => ⟨_, rfl, toNat_addrWord nnn, (OnlyWrites.setPc s _).onlyChanges⟩⟩

/-! ## One return, one call -/

/-- A return from a stack that is not empty, piece by piece (R61). -/
theorem exec_ret_completes {s : State} (h : s.sp.val ≠ 0) :
    ∃ t, exec .ret s = .next t ∧ t.sp.val = s.sp.val - 1 ∧ s.stk[s.sp.val - 1]? = some t.pc ∧
      OnlyWrites [.sp, .pc] s t :=
  ⟨_, exec_ret_pop h, rfl, Vector.getElem?_eq_getElem _, (OnlyWrites.withSp s _).trans (.setPc _ _)⟩

/-- A call on a stack that is not full, piece by piece (R64). -/
theorem exec_call_completes {s : State} (nnn : Addr12) (h : s.sp.val < 16) :
    ∃ t, exec (.call nnn) s = .next t ∧ t.stk[s.sp.val]? = some (s.pc + 2) ∧
      (∀ k, k ≠ s.sp.val → t.stk[k]? = s.stk[k]?) ∧ t.sp.val = s.sp.val + 1 ∧ t.pc.toNat = nnn.toNat ∧
      OnlyWrites [.stk, .sp, .pc] s t :=
  ⟨_, exec_call_push nnn h, Vector.getElem?_set_self h, exec_otherEntries (exec_call_push nnn h), rfl,
    toNat_addrWord nnn, (OnlyWrites.withStack s _ _).trans (.setPc _ _)⟩

/-- Settles O32. -/
theorem retPopsReturnAddress : Obligations.RetPopsReturnAddress := by
  refine ⟨Instr.encodedAs .ret, fun s => ⟨fun hsp => ?_, exec_ret_empty⟩⟩
  obtain ⟨t, he, htsp, hpc, hw⟩ := exec_ret_completes hsp
  exact ⟨t, he, htsp, hpc, hw.onlyChanges⟩

/-- Settles O34. -/
theorem callPushesReturnAddress : Obligations.CallPushesReturnAddress := by
  refine ⟨Instr.encodedAs (.call 0), fun nnn s => ⟨fun hsp => ?_, exec_call_full nnn⟩⟩
  obtain ⟨t, he, htop, hother, htsp, hpc, hw⟩ := exec_call_completes nnn (s := s) (by omega)
  exact ⟨t, he, htop, hother, htsp, hpc, hw.onlyChanges⟩

/-! ## Nested calls -/

/-- A sequence of instructions runs in two parts, one after the other. -/
theorem execAll_append {is js : List Instr} {s t : State} (h : execAll is s = .next t) :
    execAll (is ++ js) s = execAll js t := by
  induction is generalizing s with
  | nil =>
    cases h
    rfl
  | cons i is ih =>
    rw [execAll] at h
    rw [List.cons_append, execAll]
    cases he : exec i s with
    | next u => exact ih (by simpa [he] using h)
    | fault r => simp [he] at h
    | refused r => simp [he] at h

theorem execAll_cons {i : Instr} {is : List Instr} {s t : State} (h : exec i s = .next t) :
    execAll (i :: is) s = execAll is t := by
  simp [execAll, h]

/-- What calls with as many returns keep: everything but `pc` and stale stack entries (R65). -/
def StackKept (s t : State) : Prop :=
  OnlyWrites [.pc, .stk] s t ∧ ∀ k, k < s.sp.val → t.stk[k]? = s.stk[k]?

theorem StackKept.refl (s : State) : StackKept s s := ⟨fun f _ => .refl f s, fun _ _ => rfl⟩

/-- A written piece of state that is in the end what it was need not be listed. -/
theorem OnlyWrites.of_unchanged {f : Field} {fs : List Field} {s t : State} (h : OnlyWrites (f :: fs) s t)
    (hf : f.Unchanged s t) : OnlyWrites fs s t := by
  intro g hg
  by_cases hgf : g = f
  · exact hgf ▸ hf
  · exact h g (by simp [hgf, hg])

/-- A call, a body that keeps the stack the call leaves, and a return: control is after the call, and the
stack is kept (R61, R64). -/
theorem execAll_call_body_ret {is : List Instr} {s : State} (nnn : Addr12) (hsp : s.sp.val < 16)
    (hbody : ∀ u : State, u.sp.val = s.sp.val + 1 → ∃ v, execAll is u = .next v ∧ StackKept u v) :
    ∃ t, execAll (.call nnn :: (is ++ [.ret])) s = .next t ∧ t.pc = s.pc + 2 ∧ StackKept s t := by
  obtain ⟨u, hcall, htop, hother, husp, -, hwu⟩ := exec_call_completes nnn hsp
  obtain ⟨v, hrun, hwv, hkept⟩ := hbody u husp
  have hvsp : v.sp = u.sp := hwv .sp (by simp)
  obtain ⟨t, hret, htsp, hpc, hwt⟩ := exec_ret_completes (s := v) (by omega)
  have htstk : t.stk = v.stk := hwt .stk (by simp)
  refine ⟨t, ?_, ?_, ?_, fun k hk => ?_⟩
  · rw [execAll_cons hcall, execAll_append hrun, execAll_cons hret, execAll]
  · have hdepth : v.sp.val - 1 = s.sp.val := by omega
    rw [hdepth, hkept _ (by omega), htop] at hpc
    exact (Option.some.inj hpc).symm
  · have hback : t.sp = s.sp := Fin.ext (by omega)
    exact (((hwu.trans hwv).trans hwt).mono (by simp)).of_unchanged (f := .sp) hback
  · rw [htstk, hkept k (by omega), hother k (by omega)]

/-- The returns of a nonempty nest: the last one belongs to the first call. -/
theorem calls_append_rets (n : Addr12) (ns : List Addr12) :
    (n :: ns).map Instr.call ++ List.replicate (n :: ns).length Instr.ret =
      .call n :: ((ns.map Instr.call ++ List.replicate ns.length Instr.ret) ++ [.ret]) := by
  rw [List.length_cons, List.replicate_succ', List.map_cons, List.cons_append, List.append_assoc]

/-- Calls that fit the stack, then as many returns, keep the stack; by induction on the targets, the inner
nest being the body of the first call. -/
theorem execAll_calls_rets_kept (ns : List Addr12) {s : State} (hfit : s.sp.val + ns.length ≤ 16) :
    ∃ t, execAll (ns.map Instr.call ++ List.replicate ns.length Instr.ret) s = .next t ∧ StackKept s t := by
  induction ns generalizing s with
  | nil => exact ⟨s, rfl, .refl s⟩
  | cons n ns ih =>
    rw [List.length_cons] at hfit
    obtain ⟨t, hrun, -, hkept⟩ := execAll_call_body_ret n (s := s) (by omega) fun u hu => ih (by omega)
    exact ⟨t, calls_append_rets n ns ▸ hrun, hkept⟩

/-- Settles O35: the nest inside the first call keeps the stack, so the last return finds the address that
call pushed. -/
theorem nestedCallsReturn : Obligations.NestedCallsReturn := by
  intro ns s hne hfit
  obtain ⟨n, ns, rfl⟩ := List.exists_cons_of_ne_nil hne
  rw [List.length_cons] at hfit
  obtain ⟨t, hrun, hpc, hw, hkept⟩ :=
    execAll_call_body_ret n (s := s) (by omega) fun u hu => execAll_calls_rets_kept ns (by omega)
  exact ⟨t, calls_append_rets n ns ▸ hrun, hpc, hkept, hw.onlyChanges⟩

end Sys2Proof.Machine
end

section
/-! PROOFS. The skips on a comparison of two bytes (spec/41_skips.md R70 to R74). -/

namespace Sys2Proof.Machine

/-- An instruction that skips where two bytes are equal (R70, R72). -/
theorem skip_of_eq_completes {i : Instr} {s : State} {a b : Byte} (he : exec i s = .next (s.skipIf (a == b))) :
    ∃ t, exec i s = .next t ∧ t.pc = (if a = b then s.pc + 4 else s.pc + 2) ∧ OnlyChanges [.pc] s t := by
  have hpc : (s.skipIf (a == b)).pc = if a = b then s.pc + 4 else s.pc + 2 := by
    simp only [State.skipIf_pc, beq_iff_eq]
  exact ⟨_, he, hpc, (OnlyWrites.skipIf s _).onlyChanges⟩

/-- An instruction that skips where two bytes differ (R71, R73). -/
theorem skip_of_ne_completes {i : Instr} {s : State} {a b : Byte} (he : exec i s = .next (s.skipIf (a != b))) :
    ∃ t, exec i s = .next t ∧ t.pc = (if a = b then s.pc + 2 else s.pc + 4) ∧ OnlyChanges [.pc] s t := by
  have hpc : (s.skipIf (a != b)).pc = if a = b then s.pc + 2 else s.pc + 4 := by
    simp only [State.skipIf_pc, bne_iff_ne, ite_not]
  exact ⟨_, he, hpc, (OnlyWrites.skipIf s _).onlyChanges⟩

/-- Settles O37: the two compare `V[x]` with `nn`, one for equal and one for different. -/
theorem immediateSkips : Obligations.ImmediateSkips :=
  ⟨Instr.encodedAs (.sei 0 0), Instr.encodedAs (.snei 0 0), fun _ _ _ =>
    ⟨skip_of_eq_completes rfl, skip_of_ne_completes rfl⟩⟩

/-- Settles O38: the two compare `V[x]` with `V[y]`, and read no low nibble. -/
theorem registerSkips : Obligations.RegisterSkips :=
  ⟨Instr.encodedAs (.ser 0 0 0), Instr.encodedAs (.sner 0 0 0), fun _ _ _ _ =>
    ⟨skip_of_eq_completes rfl, skip_of_ne_completes rfl⟩⟩

end Sys2Proof.Machine
end

section
/-! PROOFS. The immediate and register ALU (spec/42_immediate_alu.md R75 to R86): what writing a result, or a
result and its flag, leaves in the state; the results and flags as numbers; and the instructions from both. -/

namespace Sys2Proof.Machine

/-! ## The two ways an ALU instruction completes -/

/-- An instruction that writes its result and no flag (R75 to R80). -/
theorem result_completes {i : Instr} {s : State} {x : Reg} {b : Byte} (he : exec i s = .next (s.setV x b).advance) :
    ∃ t, exec i s = .next t ∧ t.readV x = b ∧ OtherRegs [x] s t ∧ t.pc = s.pc + 2 ∧ OnlyChanges [.v, .pc] s t := by
  have hother : OtherRegs [x] s (s.setV x b).advance := by
    intro r hr
    simp_all
  exact ⟨_, he, by simp, hother, rfl, ((OnlyWrites.setV s x b).trans (.advance _)).onlyChanges⟩

/-- An instruction that writes its result, the number `n`, and then its flag, which wins where `x` is 0xF
(R86 d). -/
theorem result_flag_completes {i : Instr} {s : State} {x : Reg} {r : Byte × Bool} {n : Nat}
    (he : exec i s = .next (s.setResultFlag x r).advance) (hn : r.1.toNat = n) :
    ∃ t, exec i s = .next t ∧ (x ≠ flagReg → (t.readV x).toNat = n) ∧ t.readV flagReg = flagByte r.2 ∧
      OtherRegs [x, flagReg] s t ∧ t.pc = s.pc + 2 ∧ OnlyChanges [.v, .pc] s t := by
  have hresult (hx : x ≠ flagReg) : ((s.setResultFlag x r).advance.readV x).toNat = n := by
    simp [hx, hn]
  have hother : OtherRegs [x, flagReg] s (s.setResultFlag x r).advance := by
    intro q hq
    simp_all
  exact ⟨_, he, hresult, by simp, hother, rfl, ((OnlyWrites.setResultFlag s x r).trans (.advance _)).onlyChanges⟩

/-- The same where the flag is the truth of a comparison (R81, R82, R84). -/
theorem result_decide_completes {i : Instr} {s : State} {x : Reg} {b : Byte} {n : Nat} {p : Prop} [Decidable p]
    (he : exec i s = .next (s.setResultFlag x (b, decide p)).advance) (hn : b.toNat = n) :
    ∃ t, exec i s = .next t ∧ (x ≠ flagReg → (t.readV x).toNat = n) ∧ t.readV flagReg = (if p then 1 else 0) ∧
      OtherRegs [x, flagReg] s t ∧ t.pc = s.pc + 2 ∧ OnlyChanges [.v, .pc] s t := by
  have hflag : flagByte (decide p) = if p then 1 else 0 := by
    simp only [flagByte, decide_eq_true_eq]
  exact hflag ▸ result_flag_completes he hn

/-- The same where the flag is bit `k` of a byte (R83, R85). -/
theorem result_bit_completes {i : Instr} {s : State} {x : Reg} {a b : Byte} {k n : Nat}
    (he : exec i s = .next (s.setResultFlag x (b, a.getLsbD k)).advance) (hn : b.toNat = n) :
    ∃ t, exec i s = .next t ∧ (x ≠ flagReg → (t.readV x).toNat = n) ∧
      (t.readV flagReg).toNat = a.toNat / 2 ^ k % 2 ∧
      OtherRegs [x, flagReg] s t ∧ t.pc = s.pc + 2 ∧ OnlyChanges [.v, .pc] s t := by
  have hflag : (flagByte (a.getLsbD k)).toNat = a.toNat / 2 ^ k % 2 := by
    rw [← Nat.toNat_testBit, ← BitVec.testBit_toNat]
    cases a.toNat.testBit k <;> rfl
  obtain ⟨t, hexec, hresult, hf, hframe⟩ := result_flag_completes he hn
  exact ⟨t, hexec, hresult, hf ▸ hflag, hframe⟩

/-! ## The results as numbers -/

theorem toNat_sub_byte (a b : Byte) : (a - b).toNat = (a.toNat + 256 - b.toNat) % 256 := by
  rw [BitVec.toNat_sub]
  omega

theorem toNat_shiftRight_one (a : Byte) : (a >>> 1).toNat = a.toNat / 2 := by
  simp [Nat.shiftRight_eq_div_pow]

theorem toNat_shiftLeft_one (a : Byte) : (a <<< 1).toNat = a.toNat * 2 % 256 := by
  simp [Nat.shiftLeft_eq]

/-! ## The instructions -/

/-- Settles O40. -/
theorem ldiLoadsImmediate : Obligations.LdiLoadsImmediate :=
  ⟨Instr.encodedAs (.ldi 0 0), fun _ _ _ => result_completes rfl⟩

/-- Settles O41: the register written holds the sum of two bytes, which wraps. -/
theorem addiAddsWithoutFlag : Obligations.AddiAddsWithoutFlag := by
  refine ⟨Instr.encodedAs (.addi 0 0), fun x nn s => ?_⟩
  obtain ⟨t, hexec, hx, hframe⟩ := result_completes (i := .addi x nn) (s := s) rfl
  exact ⟨t, hexec, hx ▸ BitVec.toNat_add _ _, hframe⟩

/-- Settles O42: the four write one result each, and no flag. -/
theorem copyAndLogic : Obligations.CopyAndLogic :=
  ⟨Instr.encodedAs (.mov 0 0), Instr.encodedAs (.or 0 0), Instr.encodedAs (.and 0 0), Instr.encodedAs (.xor 0 0),
    fun _ _ _ => ⟨result_completes rfl, result_completes rfl, result_completes rfl, result_completes rfl⟩⟩

/-- Settles O43. -/
theorem addSetsCarry : Obligations.AddSetsCarry :=
  ⟨Instr.encodedAs (.add 0 0), fun _ _ _ => result_decide_completes rfl (BitVec.toNat_ofNat _ _)⟩

/-- Settles O44: the two differ in the order of the operands alone. -/
theorem subtractionsSetGreater : Obligations.SubtractionsSetGreater :=
  ⟨Instr.encodedAs (.sub 0 0), Instr.encodedAs (.subn 0 0), fun _ _ _ =>
    ⟨result_decide_completes rfl (toNat_sub_byte _ _), result_decide_completes rfl (toNat_sub_byte _ _)⟩⟩

/-- Settles O45: the bit shifted out is bit 0, for the other bit 7, which has no bit above it. -/
theorem shiftsSetBitOut : Obligations.ShiftsSetBitOut := by
  refine ⟨Instr.encodedAs (.shr 0 0), Instr.encodedAs (.shl 0 0), fun x g s => ⟨?_, ?_⟩⟩
  · obtain ⟨t, hexec, hresult, hflag, hframe⟩ :=
      result_bit_completes (i := .shr x g) (s := s) rfl (toNat_shiftRight_one _)
    exact ⟨t, hexec, hresult, by rw [hflag, pow_zero, Nat.div_one], hframe⟩
  · obtain ⟨t, hexec, hresult, hflag, hframe⟩ :=
      result_bit_completes (i := .shl x g) (s := s) rfl (toNat_shiftLeft_one _)
    exact ⟨t, hexec, hresult, by have := (s.readV x).isLt; omega, hframe⟩

end Sys2Proof.Machine
end

section
/-! PROOFS. Set address register, jump with offset and random byte (spec/43_index_jump_random.md R90 to R92). -/

namespace Sys2Proof.Machine

/-- The jump target as a number: a 12-bit address and a byte never wrap a 16-bit sum (R91). -/
theorem toNat_addrWord_add_byteWord (a : Addr12) (b : Byte) :
    (addrWord a + byteWord b).toNat = a.toNat + b.toNat := by
  have hlt : a.toNat + b.toNat < 2 ^ 16 := by omega
  rw [BitVec.toNat_add, toNat_addrWord, toNat_byteWord, Nat.mod_eq_of_lt hlt]

/-- Settles O36: the sum does not wrap. -/
theorem jpv0JumpsWithOffset : Obligations.Jpv0JumpsWithOffset :=
  ⟨Instr.encodedAs (.jpv0 0), fun nnn s =>
    ⟨_, rfl, toNat_addrWord_add_byteWord nnn _, (OnlyWrites.setPc s _).onlyChanges⟩⟩

/-- Settles O46: zero-extension keeps the address as a number. -/
theorem ldaSetsAddressRegister : Obligations.LdaSetsAddressRegister :=
  ⟨Instr.encodedAs (.lda 0), fun nnn s =>
    ⟨_, rfl, toNat_addrWord nnn, rfl, ((OnlyWrites.withI s _).trans (.advance _)).onlyChanges⟩⟩

/-- Settles O48: the register written holds the masked draw, and its bits outside the mask are 0 whatever
the draw. -/
theorem rndMasksTheDraw : Obligations.RndMasksTheDraw := by
  refine ⟨Instr.encodedAs (.rnd 0 0), fun x nn s => ?_⟩
  have hexec : exec (.rnd x nn) s = .next (s.drawByte.2.setV x (Config.drawByte s.draws &&& nn)).advance := rfl
  have hx : (s.drawByte.2.setV x (Config.drawByte s.draws &&& nn)).advance.readV x =
      Config.drawByte s.draws &&& nn := by
    simp
  have hsubset : Config.drawByte s.draws &&& nn &&& ~~~nn = 0 := by
    rw [BitVec.and_assoc, BitVec.and_not_self]
    exact BitVec.and_zero
  exact ⟨_, hexec, hx, hx.symm ▸ hsubset, rfl, fun r hr => exec_otherRegs hexec r (mt List.mem_singleton.mpr hr),
    rfl, (exec_onlyWrites hexec).onlyChanges⟩

end Sys2Proof.Machine
end

section
/-! PROOFS. Draw a sprite (spec/44_draw.md R95 to R98): what a pixel, a row and a sprite leave on the display and
in the hit, the draw that fits as one state change, and the draws that do not fit. -/

namespace Sys2Proof.Machine

/-! ## Bits XORed onto the display -/

/-- The display and the hit `r` come from `acc` by drawing each pixel's bit once: the bit is XORed onto the
pixel, and a bit 1 on a lit pixel is a hit (R95, R97). -/
structure Drawn (bit : Nat → Nat → Bool) (acc r : Display × Bool) : Prop where
  get : ∀ px py, r.1.get px py = (acc.1.get px py ^^ bit px py)
  hit : r.2 = true ↔ acc.2 = true ∨ ∃ px py, acc.1.get px py = true ∧ bit px py = true

theorem Drawn.refl {bit : Nat → Nat → Bool} (hbit : ∀ px py, bit px py = false) (acc : Display × Bool) :
    Drawn bit acc acc := ⟨by simp [hbit], by simp [hbit]⟩

/-- Two sets of bits drawn one after the other are their union drawn, if no pixel is in both: then the second
meets the pixels of the display before the first. -/
theorem Drawn.union {p q bit : Nat → Nat → Bool} {acc r r' : Display × Bool} (hp : Drawn p acc r) (hq : Drawn q r r')
    (hbit : ∀ px py, bit px py = (p px py || q px py)) (hdisj : ∀ px py, q px py = true → p px py = false) :
    Drawn bit acc r' := by
  have hold (px py : Nat) (h : q px py = true) : r.1.get px py = acc.1.get px py := by
    rw [hp.get, hdisj px py h, Bool.xor_false]
  constructor
  · intro px py
    rw [hq.get, hp.get, hbit, Bool.xor_assoc]
    cases h : q px py with
    | false => simp
    | true => simp [hdisj px py h]
  · have hqhit : (∃ px py, r.1.get px py = true ∧ q px py = true) ↔ ∃ px py, acc.1.get px py = true ∧ q px py = true :=
      exists₂_congr fun px py => and_congr_left fun h => by rw [hold px py h]
    rw [hq.hit, hp.hit, hqhit, or_assoc]
    simp only [hbit, Bool.or_eq_true, and_or_left, exists_or]

/-! ## A pixel, a row, a sprite -/

/-- The bit of column `col`, and no other. -/
def pixelBits (b : Byte) (x0 y col : Nat) (px py : Nat) : Bool :=
  decide (px = x0 + col ∧ py = y) && spriteBit b col

/-- The first `n` bits of a row. -/
def rowBits (b : Byte) (x0 y n : Nat) (px py : Nat) : Bool :=
  decide (x0 ≤ px ∧ px < x0 + n ∧ py = y) && spriteBit b (px - x0)

/-- The bits of a sprite whose top row is `y`, one byte for each row. -/
def spriteBits (x0 y : Nat) (bs : List Byte) (px py : Nat) : Bool :=
  decide (x0 ≤ px ∧ px < x0 + 8) && decide (y ≤ py ∧ py < y + bs.length) && spriteBit (bs.getD (py - y) 0) (px - x0)

theorem drawPixel_drawn (b : Byte) {x0 y col : Nat} (acc : Display × Bool) (hx : x0 + col < 64) (hy : y < 32) :
    Drawn (pixelBits b x0 y col) acc (drawPixel b x0 y col acc) := by
  refine ⟨fun px py => drawPixel_get b x0 y col acc px py hx hy, ?_⟩
  rw [drawPixel_hit]
  simp [pixelBits, and_comm, and_assoc]

theorem rowBits_succ (b : Byte) (x0 y n px py : Nat) :
    rowBits b x0 y (n + 1) px py = (rowBits b x0 y n px py || pixelBits b x0 y n px py) := by
  by_cases hlast : px = x0 + n
  · simp [rowBits, pixelBits, hlast]
  · have hcols : px < x0 + (n + 1) ↔ px < x0 + n := by omega
    simp [rowBits, pixelBits, hlast, hcols]

theorem rowBits_of_pixelBits {b : Byte} {x0 y n px py : Nat} (h : pixelBits b x0 y n px py = true) :
    rowBits b x0 y n px py = false := by
  simp_all [rowBits, pixelBits]

/-- The columns of a row, by induction on how many. -/
theorem drawRow_drawn (b : Byte) {x0 y n : Nat} (acc : Display × Bool) (hx : x0 + n ≤ 64) (hy : y < 32) :
    Drawn (rowBits b x0 y n) acc (drawRow b x0 y n acc) := by
  induction n with
  | zero => exact .refl (fun px py => by simp [rowBits]; omega) acc
  | succ n ih =>
    exact (ih (by omega)).union (drawPixel_drawn b _ (by omega) hy) (rowBits_succ b x0 y n)
      fun _ _ => rowBits_of_pixelBits

/-- The first byte is the row `y`, and the others are a sprite from the row below. -/
theorem spriteBits_cons (x0 y : Nat) (b : Byte) (bs : List Byte) (px py : Nat) :
    spriteBits x0 y (b :: bs) px py = (rowBits b x0 y 8 px py || spriteBits x0 (y + 1) bs px py) := by
  obtain hlt | rfl | hgt := Nat.lt_trichotomy py y
  · have hbelow : ¬ y + 1 ≤ py := by omega
    simp [spriteBits, rowBits, hlt.not_ge, hlt.ne, hbelow]
  · simp [spriteBits, rowBits]
  · obtain ⟨d, rfl⟩ := Nat.exists_eq_add_of_lt hgt
    have hrow : y + d + 1 - y = d + 1 := by omega
    have hnext : y + d + 1 - (y + 1) = d := by omega
    have hrows : y + d + 1 < y + (bs.length + 1) ↔ y + d + 1 < y + 1 + bs.length := by omega
    simp [spriteBits, rowBits, hrow, hnext, hrows, Nat.le_of_lt hgt, hgt.ne']

theorem rowBits_of_spriteBits {x0 y n px py : Nat} {b : Byte} {bs : List Byte}
    (h : spriteBits x0 (y + 1) bs px py = true) : rowBits b x0 y n px py = false := by
  have hrow : y + 1 ≤ py := by simp_all [spriteBits]
  have hne : py ≠ y := by omega
  simp [rowBits, hne]

/-- The rows of a sprite that lies on the display, by induction on the bytes. -/
theorem drawSprite_drawn {x0 y : Nat} {bs : List Byte} (acc : Display × Bool)
    (hfit : bs.length = 0 ∨ (x0 ≤ 56 ∧ y + bs.length ≤ 32)) :
    Drawn (spriteBits x0 y bs) acc (drawSprite x0 y bs acc) := by
  induction bs generalizing y acc with
  | nil => exact .refl (fun px py => by simp [spriteBits]) acc
  | cons b bs ih =>
    rw [List.length_cons] at hfit
    exact (drawRow_drawn b acc (by omega) (by omega)).union (ih _ (by omega)) (spriteBits_cons x0 y b bs)
      fun _ _ => rowBits_of_spriteBits

/-- The sprite's bits are those of the bytes read from `I` up (R95). -/
theorem spriteBits_readBytes (s : State) (x y : Reg) (n : Nibble) :
    spriteBits (s.readV x).toNat (s.readV y).toNat (s.mem.readBytes s.i.toNat n.val) = spriteAt s x y n := by
  funext px py
  rw [spriteBits, spriteAt, Memory.length_readBytes]
  by_cases hrow : (s.readV y).toNat ≤ py ∧ py < (s.readV y).toNat + n.val
  · rw [Memory.getD_readBytes _ _ _ _ (by omega), spriteBit]
  · simp [hrow]

theorem drawResult_drawn {s : State} {x y : Reg} {n : Nibble} (h : DrawFits s x y n) :
    Drawn (spriteAt s x y n) (s.fb, false) (drawResult s x y n) := by
  rw [← spriteBits_readBytes]
  refine drawSprite_drawn _ ?_
  rw [Memory.length_readBytes]
  exact h.imp_right And.right

/-! ## The draw that fits -/

/-- A draw that fits passes both checks, and writes the display, the flag and the `Refresh` (R95, R96). -/
theorem exec_drw_fits {s : State} {x y : Reg} {n : Nibble} (h : DrawFits s x y n) :
    ∃ t, exec (.drw x y n) s = .next t ∧ t.fb = (drawResult s x y n).1 ∧
      t.readV flagReg = flagByte (drawResult s x y n).2 ∧ t.refreshes = s.refreshes + 1 ∧ t.pc = s.pc + 2 ∧
      OnlyWrites [.fb, .v, .pc, .refreshes] s t := by
  have hmem : dataFits s.i.toNat n.val = true := (dataFits_iff _ _).mpr (h.imp_right And.left)
  have hrect : rectFits (s.readV x).toNat (s.readV y).toNat n.val = true := by
    rw [rectFits_iff]
    exact h.imp_right fun ⟨_, hx, hy⟩ => ⟨by omega, by omega⟩
  rw [exec_drw, hmem, hrect]
  exact ⟨_, rfl, rfl, by simp, rfl, rfl,
    ((((OnlyWrites.withFb s _).trans (.setV _ _ _)).trans (.emitRefresh _)).trans (.advance _)).mono (by simp)⟩

/-- What a completed `Dxyn` from `s` has done to reach `t`, with its frame (R95, R97). -/
structure DrawDone (s : State) (x y : Reg) (n : Nibble) (t : State) : Prop where
  pixel : ∀ px py, t.pixel px py = (s.pixel px py ^^ spriteAt s x y n px py)
  flag : t.readV flagReg = 1 ↔ ∃ px py, s.pixel px py = true ∧ spriteAt s x y n px py = true
  zeroOrOne : t.readV flagReg = 0 ∨ t.readV flagReg = 1
  refreshes : t.refreshes = s.refreshes + 1
  pc : t.pc = s.pc + 2
  otherRegs : OtherRegs [flagReg] s t
  writes : OnlyWrites [.fb, .v, .pc, .refreshes] s t

theorem flagByte_eq_one {f : Bool} : flagByte f = 1 ↔ f = true := by
  cases f <;> decide

theorem exec_drw_completes {s : State} {x y : Reg} {n : Nibble} (h : DrawFits s x y n) :
    ∃ t, exec (.drw x y n) s = .next t ∧ DrawDone s x y n t := by
  obtain ⟨hget, hhit⟩ := drawResult_drawn h
  obtain ⟨t, hexec, hfb, hflag, hrefreshes, hpc, hwrites⟩ := exec_drw_fits h
  refine ⟨t, hexec, ⟨fun px py => ?_, ?_, hflag ▸ flagByte_eq _, hrefreshes, hpc, fun r hr => ?_, hwrites⟩⟩
  · rw [State.pixel, hfb, hget, State.pixel]
  · rw [hflag, flagByte_eq_one, hhit]
    exact or_iff_right Bool.false_ne_true
  · exact exec_otherRegs hexec r (mt List.mem_singleton.mpr hr)

/-- Settles O49. -/
theorem drwXorsSprite : Obligations.DrwXorsSprite := by
  refine ⟨Instr.encodedAs (.drw 0 0 0), fun x y n s h => ?_⟩
  obtain ⟨t, hexec, hd⟩ := exec_drw_completes h
  exact ⟨t, hexec, hd.pixel, hd.flag, hd.zeroOrOne, hd.refreshes, hd.otherRegs, hd.pc, hd.writes.onlyChanges⟩

/-! ## The draws that do not fit, and the empty draw (R96) -/

theorem exec_drw_mem_fault {s : State} {n : Nibble} (x y : Reg) (hn : 1 ≤ n.val) (h : 0xFFF < s.i.toNat + n.val - 1) :
    exec (.drw x y n) s = .next { s with fault := some (.outOfRange .mem) } := by
  have hmem : dataFits s.i.toNat n.val = false := by
    rw [Bool.eq_false_iff, ne_eq, dataFits_iff]
    omega
  rw [exec_drw, drawFault, hmem]
  rfl

theorem exec_drw_pixel_fault {s : State} {x y : Reg} {n : Nibble} (hn : 1 ≤ n.val) (hm : s.i.toNat + n.val - 1 ≤ 0xFFF)
    (h : 63 < (s.readV x).toNat + 7 ∨ 31 < (s.readV y).toNat + n.val - 1) :
    exec (.drw x y n) s = .next { s with fault := some (.outOfRange .pixel) } := by
  have hmem : dataFits s.i.toNat n.val = true := (dataFits_iff _ _).mpr (.inr hm)
  have hrect : rectFits (s.readV x).toNat (s.readV y).toNat n.val = false := by
    rw [Bool.eq_false_iff, ne_eq, rectFits_iff]
    omega
  rw [exec_drw, drawFault, hmem, hrect]
  rfl

/-- A sprite of no rows has no bits. -/
theorem spriteAt_zero_rows (s : State) (x y : Reg) {n : Nibble} (hn : n.val = 0) (px py : Nat) :
    spriteAt s x y n px py = false := by
  have hrow : ¬((s.readV y).toNat ≤ py ∧ py < (s.readV y).toNat + n.val) := by omega
  simp [spriteAt, hrow]

theorem DrawDone.flag_zero {s t : State} {x y : Reg} {n : Nibble} (h : DrawDone s x y n t)
    (hoff : ∀ px py, spriteAt s x y n px py = true → s.pixel px py = false) : t.readV flagReg = 0 := by
  refine h.zeroOrOne.resolve_right fun hone => ?_
  obtain ⟨px, py, hlit, hbit⟩ := h.flag.mp hone
  simp [hoff px py hbit] at hlit

/-- Settles O50: with no rows the draw fits, and its sprite has no bits. -/
theorem drwRangeFaults : Obligations.DrwRangeFaults := by
  refine fun x y n s => ⟨exec_drw_mem_fault x y, exec_drw_pixel_fault, fun hn => ?_⟩
  obtain ⟨t, hexec, hd⟩ := exec_drw_completes (x := x) (y := y) (s := s) (.inl hn)
  have hbits := spriteAt_zero_rows s x y hn
  exact ⟨t, hexec, hd.writes .fault (by simp), hd.flag_zero (by simp [hbits]), hd.refreshes, by simp [hd.pixel, hbits]⟩

/-! ## The same sprite drawn twice (R98) -/

/-- Where neither `V[x]` nor `V[y]` is the flag register, a draw keeps all that the same draw reads of its sprite. -/
theorem DrawDone.same_sprite {s t : State} {x y : Reg} {n : Nibble} (h : DrawDone s x y n t) (hx : x ≠ flagReg)
    (hy : y ≠ flagReg) : spriteAt t x y n = spriteAt s x y n ∧ (DrawFits t x y n ↔ DrawFits s x y n) := by
  have hvx : t.readV x = s.readV x := h.otherRegs x (by simpa using hx)
  have hvy : t.readV y = s.readV y := h.otherRegs y (by simpa using hy)
  have hi : t.i = s.i := h.writes .i (by simp)
  have hmem : t.mem = s.mem := h.writes .mem (by simp)
  constructor
  · funext px py
    rw [spriteAt, spriteAt, hvx, hvy, hi, hmem]
  · rw [DrawFits, DrawFits, hvx, hvy, hi]

/-- Settles O51: the second draw XORs the same bits, and meets a lit pixel where the first drew on one that
was off. -/
theorem drwTwiceRestoresDisplay : Obligations.DrwTwiceRestoresDisplay := by
  intro x y n s hx hy hfit
  obtain ⟨t, ht, hdt⟩ := exec_drw_completes hfit
  obtain ⟨hsprite, hfits⟩ := hdt.same_sprite hx hy
  obtain ⟨u, hu, hdu⟩ := exec_drw_completes (hfits.mpr hfit)
  refine ⟨t, u, ht, hu, fun px py => ?_, fun hoff => ⟨hdt.flag_zero hoff, ?_⟩, ?_⟩
  · rw [hdu.pixel, hdt.pixel, hsprite, Bool.xor_assoc, Bool.xor_self, Bool.xor_false]
  · have hlit (px py : Nat) (hbit : spriteAt s x y n px py = true) : t.pixel px py = true := by
      rw [hdt.pixel, hoff px py hbit, hbit, Bool.false_xor]
    rw [hdu.flag, hsprite]
    exact exists₂_congr fun px py => and_iff_right_of_imp (hlit px py)
  · rw [hdu.refreshes, hdt.refreshes]

end Sys2Proof.Machine
end

section
/-! PROOFS. The skips on the state of a key (spec/45_key_skips.md R100, R101, R102). -/

namespace Sys2Proof.Machine

/-- A skip that wants its key down is taken where the key is down (R100). -/
theorem State.skipIf_down_pc (s : State) (down : Bool) :
    (s.skipIf (down == true)).pc = if down then s.pc + 4 else s.pc + 2 := by
  rw [State.skipIf_pc, beq_true]

/-- A skip that wants its key up is taken where the key is not down (R101). -/
theorem State.skipIf_up_pc (s : State) (down : Bool) :
    (s.skipIf (down == false)).pc = if down then s.pc + 2 else s.pc + 4 := by
  rw [State.skipIf_pc]
  cases down <;> rfl

/-- Settles O39: both instructions are a `keySkip`, one for the key down and one for the key up. -/
theorem keySkips : Obligations.KeySkips := by
  refine ⟨Instr.encodedAs (.skp 0), Instr.encodedAs (.sknp 0), fun x s => ⟨fun h => ⟨?_, ?_⟩, fun h => ?_⟩⟩
  · exact ⟨_, keySkip_key h, s.skipIf_down_pc _, (OnlyWrites.skipIf s _).onlyChanges⟩
  · exact ⟨_, keySkip_key h, s.skipIf_up_pc _, (OnlyWrites.skipIf s _).onlyChanges⟩
  · exact ⟨keySkip_noKey h, keySkip_noKey h⟩

end Sys2Proof.Machine
end

section
/-! PROOFS. Family 0xF (spec/46_misc_F.md R106 to R115): timers and address arithmetic, the wait for a key with
its deferred step (R107, R108), and the three instructions that store or load bytes from `I` up. -/

namespace Sys2Proof.Machine

/-! ## Timers (R106, R109, R110) and address arithmetic (R111, R112) -/

/-- Settles O52: reading `DT` writes one register, and the two writes one timer each. -/
theorem timerAccess : Obligations.TimerAccess :=
  ⟨Instr.encodedAs (.lddt 0), Instr.encodedAs (.stdt 0), Instr.encodedAs (.stst 0), fun _ s =>
    ⟨result_completes rfl,
      ⟨_, rfl, rfl, rfl, ((OnlyWrites.withDt s _).trans (.advance _)).onlyChanges⟩,
      ⟨_, rfl, rfl, rfl, ((OnlyWrites.withSt s _).trans (.advance _)).onlyChanges⟩⟩⟩

theorem toNat_add_byteWord (w : Word) (b : Byte) : (w + byteWord b).toNat = (w.toNat + b.toNat) % 65536 := by
  rw [BitVec.toNat_add, toNat_byteWord]

/-- Five times a byte never wraps 16 bits, so the whole byte counts (R112; decision D19). -/
theorem toNat_byteWord_mul_five (b : Byte) : (byteWord b * 5).toNat = b.toNat * 5 := by
  have hlt : b.toNat * 5 < 2 ^ 16 := by omega
  rw [BitVec.toNat_mul, toNat_byteWord]
  exact Nat.mod_eq_of_lt hlt

/-- Settles O47: the two write `I`, one a sum that wraps and the other a product that does not. -/
theorem addressArithmetic : Obligations.AddressArithmetic :=
  ⟨Instr.encodedAs (.adda 0), Instr.encodedAs (.font 0), fun _ s =>
    ⟨⟨_, rfl, toNat_add_byteWord _ _, rfl, ((OnlyWrites.withI s _).trans (.advance _)).onlyChanges⟩,
      ⟨_, rfl, toNat_byteWord_mul_five _, rfl, ((OnlyWrites.withI s _).trans (.advance _)).onlyChanges⟩⟩⟩

/-! ## Wait for key (R107, R108) -/

/-- With no key down the step of a waiting core changes nothing (R108). -/
theorem step_awaiting_idle {s : State} (h : s.Awaiting) (hk : s.keys = 0) : step s = .next s := by
  rw [step_awaiting h, waitStep_idle hk]

/-- With a key down the step of a waiting core loads its number and ends the wait, piece by piece (R108). -/
theorem step_awaiting_load {s : State} (h : s.Awaiting) (hk : s.keys ≠ 0) :
    ∃ t, step s = .next t ∧ (t.readV s.waitx).toNat = (Config.keyPick s.keys).val ∧ t.wait = false ∧
      OtherRegs [s.waitx] s t ∧ OnlyWrites [.v, .wait] s t := by
  have hread (r : Reg) : (waitStep s).readV r =
      if r = s.waitx then keyByte (Config.keyPick s.keys) else s.readV r := by
    rw [waitStep_load hk]
    exact State.readV_setV s s.waitx r _
  refine ⟨_, step_awaiting h, ?_, ?_, fun r hr => ?_, OnlyWrites.waitStep s⟩
  · rw [hread, if_pos rfl, toNat_keyByte]
  · rw [waitStep_load hk]
  · rw [hread, if_neg (mt List.mem_singleton.mpr hr)]

theorem hostLoad_wait (p : List Byte) (s : State) : (hostLoad p s).1.wait = s.wait := by
  unfold hostLoad
  split <;> rfl

/-- Settles O10. -/
theorem waitStepLoadsAPressedKey : Obligations.WaitStepLoadsAPressedKey := by
  refine fun s h => ⟨step_awaiting_idle h, fun hk => ?_, fun p => (hostLoad_wait p s).trans h.2, rfl⟩
  obtain ⟨t, hstep, hkey, hwait, hother, hwrites⟩ := step_awaiting_load h hk
  exact ⟨t, hstep, Config.keyPick_down _ hk, hkey, hwait, hother, hwrites.onlyChanges⟩

/-- `Fx0A`, piece by piece (R107). -/
theorem exec_wkey_completes (x : Reg) (s : State) :
    ∃ t, exec (.wkey x) s = .next t ∧ t.wait = true ∧ t.waitx = x ∧ t.pc = s.pc + 2 ∧
      OnlyWrites [.wait, .waitx, .pc] s t :=
  ⟨_, rfl, rfl, rfl, rfl, (OnlyWrites.withLatch s true x).trans (.advance _)⟩

/-- Settles O53: `Fx0A` leaves a core that is not Faulted waiting, with the same keys down, so the step after it
is the deferred one. -/
theorem wkeyStartsWait : Obligations.WkeyStartsWait := by
  refine ⟨Instr.encodedAs (.wkey 0), fun x s => ?_⟩
  obtain ⟨t, hexec, hwait, hwaitx, hpc, hwrites⟩ := exec_wkey_completes x s
  have hkeys : t.keys = s.keys := hwrites .keys (by simp)
  have hfault : t.fault = s.fault := hwrites .fault (by simp)
  have hawaiting (hf : s.fault = none) : t.Awaiting := ⟨hfault.trans hf, hwait⟩
  refine ⟨t, hexec, hwait, hwaitx, hpc, hwrites.onlyChanges,
    fun hf hk => step_awaiting_idle (hawaiting hf) (hkeys.trans hk), fun hf hk => ?_⟩
  obtain ⟨u, hstep, hkey, hended, -, hloads⟩ := step_awaiting_load (hawaiting hf) (hkeys ▸ hk)
  have hheld : u.pc = t.pc := hloads .pc (by simp)
  rw [hwaitx, hkeys] at hkey
  exact ⟨u, hstep, hended, hheld.trans hpc, hkey ▸ Fin.is_le _, hkey ▸ Config.keyPick_down _ hk⟩

/-! ## The range check of the block instructions (R33) -/

/-- An instruction whose bytes, from `base` to `base + last`, lie in memory completes. -/
theorem guarded_data_fits {base last : Nat} {f : FaultRecord} {s u : State} (h : base + last ≤ 0xFFF) :
    guarded (dataFits base (last + 1)) f s u = .next u := if_pos ((dataFits_iff _ _).mpr (.inr h))

/-- An instruction some of whose bytes lie beyond memory raises its fault and changes nothing else (R124). -/
theorem guarded_data_beyond {base last : Nat} {f : FaultRecord} {s u : State} (h : 0xFFF < base + last) :
    guarded (dataFits base (last + 1)) f s u = .next { s with fault := some f } := by
  refine if_neg ?_
  rw [dataFits_iff]
  omega

/-! ## BCD (R113) -/

/-- The `k`-th digit stored is found at its place as the number it is: a digit fits its byte. -/
theorem Memory.toNat_read_bcdDigits (m : Memory) (base : Nat) {b : Byte} {k n : Nat}
    (hd : (bcdDigits b)[k]? = some (BitVec.ofNat 8 n)) (hn : n < 256) :
    ((m.writeBytes base (bcdDigits b)).read (base + k)).toNat = n := by
  obtain ⟨hk, -⟩ := List.getElem?_eq_some_iff.mp hd
  rw [Memory.read_writeBytes, if_pos (by omega), Nat.add_sub_cancel_left, List.getD_eq_getElem?_getD, hd]
  exact Nat.mod_eq_of_lt hn

/-- Settles O54: the three bytes hold the three digits in order. -/
theorem bcdStoresDigits : Obligations.BcdStoresDigits := by
  refine ⟨Instr.encodedAs (.bcd 0), fun x s =>
    ⟨fun h => ?_, fun h => (exec_bcd x s).trans (guarded_data_beyond h)⟩⟩
  have hexec := (exec_bcd x s).trans (guarded_data_fits h)
  exact ⟨_, hexec, Memory.toNat_read_bcdDigits _ _ (k := 0) rfl (by omega),
    Memory.toNat_read_bcdDigits _ _ (k := 1) rfl (by omega), Memory.toNat_read_bcdDigits _ _ (k := 2) rfl (by omega),
    exec_otherBytes hexec, rfl, ((OnlyWrites.withMem s _).trans (.advance _)).onlyChanges⟩

/-! ## Register blocks (R114, R115) -/

/-- Settles O55. -/
theorem stmStoresBlock : Obligations.StmStoresBlock := by
  refine ⟨Instr.encodedAs (.stm 0), fun x s =>
    ⟨fun h => ?_, fun h => (exec_stm x s).trans (guarded_data_beyond h)⟩⟩
  have hexec := exec_stm_fits h
  exact ⟨_, hexec, fun r hr => Memory.read_writeBytes_regsUpTo _ _ s hr, exec_otherBytes hexec, rfl,
    ((OnlyWrites.withMem s _).trans (.advance _)).onlyChanges⟩

/-- A `Fx65` whose block lies in memory completes, each register of the block from its byte (R115). -/
theorem exec_ldm_completes {x : Reg} {s : State} (h : s.i.toNat + x.val ≤ 0xFFF) :
    ∃ t, exec (.ldm x) s = .next t ∧ (∀ r, r ≤ x → t.readV r = s.mem.read (s.i.toNat + r.val)) ∧
      t.pc = s.pc + 2 ∧ OnlyWrites [.v, .pc] s t := by
  refine ⟨_, (exec_ldm x s).trans (guarded_data_fits h), fun r hr => ?_, rfl,
    (OnlyWrites.withV s _).trans (.advance _)⟩
  have hlt : r.val < x.val + 1 := Nat.lt_succ_of_le hr
  refine (loadRegs_get _ s.v 0 r).trans ?_
  rw [Memory.length_readBytes, if_pos (by omega), Nat.sub_zero, Memory.getD_readBytes _ _ _ _ hlt]

/-- Settles O56: the registers above `x` are not among those the load may write. -/
theorem ldmLoadsBlock : Obligations.LdmLoadsBlock := by
  refine ⟨Instr.encodedAs (.ldm 0), fun x s =>
    ⟨fun h => ?_, fun h => (exec_ldm x s).trans (guarded_data_beyond h)⟩⟩
  obtain ⟨t, hexec, hblock, hpc, hwrites⟩ := exec_ldm_completes h
  exact ⟨t, hexec, hblock, fun r hr => exec_otherRegs hexec r (not_le_of_gt hr), hpc, hwrites.onlyChanges⟩

/-- Settles O57: each register is loaded from the byte it was stored in. -/
theorem storeThenLoadRoundTrips : Obligations.StoreThenLoadRoundTrips := by
  refine fun x s h => ⟨_, exec_stm_fits h, fun u hi hmem => ?_⟩
  obtain ⟨w, hexec, hblock, -⟩ := exec_ldm_completes (x := x) (s := u) (hi ▸ h)
  refine ⟨w, hexec, fun r hr => ?_⟩
  rw [hblock r hr, hi, hmem, State.advance_mem, Memory.read_writeBytes_regsUpTo _ _ s hr]

end Sys2Proof.Machine
end

section
/-! PROOFS. Faults (spec/60_exceptions.md R121 to R125): in which states each instruction, and each step, raises
which fault, and that a fault raised is all the step does. -/

namespace Sys2Proof.Machine

/-! ## The faults of one instruction -/

/-- The instruction raises that fault in `s`: every cause of a fault but those of fetch and decode (R122), a draw
reporting memory before the rectangle (R123). -/
inductive Raises (s : State) : Instr → FaultRecord → Prop where
  | callFull {nnn : Addr12} : s.sp.val = 16 → Raises s (.call nnn) .stackOverflow
  | retEmpty : s.sp.val = 0 → Raises s .ret .stackUnderflow
  | drawMem {x y : Reg} {n : Nibble} : 1 ≤ n.val → 0xFFF < s.i.toNat + n.val - 1 →
      Raises s (.drw x y n) (.outOfRange .mem)
  | drawPixel {x y : Reg} {n : Nibble} : 1 ≤ n.val → s.i.toNat + n.val - 1 ≤ 0xFFF →
      56 < (s.readV x).toNat ∨ 32 < (s.readV y).toNat + n.val → Raises s (.drw x y n) (.outOfRange .pixel)
  | bcdMem {x : Reg} : 0xFFF < s.i.toNat + 2 → Raises s (.bcd x) (.outOfRange .mem)
  | stmMem {x : Reg} : 0xFFF < s.i.toNat + x.val → Raises s (.stm x) (.outOfRange .mem)
  | ldmMem {x : Reg} : 0xFFF < s.i.toNat + x.val → Raises s (.ldm x) (.outOfRange .mem)
  | skpKey {x : Reg} : 15 < (s.readV x).toNat → Raises s (.skp x) (.outOfRange .key)
  | sknpKey {x : Reg} : 15 < (s.readV x).toNat → Raises s (.sknp x) (.outOfRange .key)

/-- What raises a fault does what R124 says, and nothing else. -/
theorem Raises.exec_eq {s : State} {i : Instr} {f : FaultRecord} (h : Raises s i f) : exec i s = raise f s := by
  cases h with
  | callFull hsp => exact exec_call_full _ hsp
  | retEmpty hsp => exact exec_ret_empty hsp
  | drawMem hn hm => exact exec_drw_mem_fault _ _ hn hm
  | drawPixel hn hm hr => exact exec_drw_pixel_fault hn hm (by omega)
  | bcdMem hm => exact (exec_bcd _ s).trans (guarded_data_beyond hm)
  | stmMem hm => exact (exec_stm _ s).trans (guarded_data_beyond hm)
  | ldmMem hm => exact (exec_ldm _ s).trans (guarded_data_beyond hm)
  | skpKey hk | sknpKey hk => exact keySkip_noKey hk

/-- A range check fails where a byte asked for lies beyond memory (R33). -/
theorem dataFits_false {base len : Nat} (h : dataFits base len = false) : 1 ≤ len ∧ 0xFFF < base + len - 1 := by
  rw [Bool.eq_false_iff, ne_eq, dataFits_iff] at h
  omega

/-- The rectangle check fails where a row or a column of the sprite lies off the display (R96). -/
theorem rectFits_false {vx vy n : Nat} (h : rectFits vx vy n = false) : 1 ≤ n ∧ (56 < vx ∨ 32 < vy + n) := by
  rw [Bool.eq_false_iff, ne_eq, rectFits_iff] at h
  omega

/-- A draw that fails one of its checks raises the fault of the first it fails (R96, R123). -/
theorem Raises.of_draw {s : State} {x y : Reg} {n : Nibble}
    (h : (dataFits s.i.toNat n.val && rectFits (s.readV x).toNat (s.readV y).toNat n.val) = false) :
    Raises s (.drw x y n) (drawFault s n) := by
  unfold drawFault
  cases hm : dataFits s.i.toNat n.val with
  | false =>
    obtain ⟨hn, hbeyond⟩ := dataFits_false hm
    exact .drawMem hn hbeyond
  | true =>
    rw [hm, Bool.true_and] at h
    obtain ⟨hn, hoff⟩ := rectFits_false h
    have hfits : s.i.toNat + n.val - 1 ≤ 0xFFF := ((dataFits_iff _ _).mp hm).resolve_left (by omega)
    exact .drawPixel hn hfits hoff

/-- What an instruction can have done to the latch: left it, or raised a fault and changed nothing else. -/
def LeavesOrRaises (i : Instr) (s t : State) : Prop :=
  t.fault = s.fault ∨ ∃ f, Raises s i f ∧ t = { s with fault := some f }

theorem LeavesOrRaises.of_guarded {i : Instr} {ok : Bool} {f : FaultRecord} {s t u : State}
    (h : exec i s = .next t) (he : exec i s = guarded ok f s u) (hu : u.fault = s.fault)
    (hf : ok = false → Raises s i f) : LeavesOrRaises i s t := by
  rw [he] at h
  cases ok with
  | false => exact .inr ⟨f, hf rfl, raise_next h⟩
  | true =>
    cases h
    exact .inl hu

/-- Every instruction leaves the latch or raises one of its faults: those that can fault check first, and the
others do not have the latch in their write sets. -/
theorem exec_leavesOrRaises {i : Instr} {s t : State} (h : exec i s = .next t) : LeavesOrRaises i s t := by
  cases i with
  | call nnn =>
    by_cases hsp : s.sp.val < 16
    · rw [exec_call_push nnn hsp] at h
      cases h
      exact .inl rfl
    · have hfull : s.sp.val = 16 := by omega
      exact .inr ⟨_, .callFull hfull, raise_next (exec_call_full nnn hfull ▸ h)⟩
  | ret =>
    by_cases hsp : s.sp.val = 0
    · exact .inr ⟨_, .retEmpty hsp, raise_next (exec_ret_empty hsp ▸ h)⟩
    · rw [exec_ret_pop hsp] at h
      cases h
      exact .inl rfl
  | drw x y n => exact .of_guarded h (exec_drw x y n s) rfl .of_draw
  | bcd x => exact .of_guarded h (exec_bcd x s) rfl fun hm => .bcdMem (dataFits_false hm).2
  | stm x => exact .of_guarded h (exec_stm x s) rfl fun hm => .stmMem (dataFits_false hm).2
  | ldm x => exact .of_guarded h (exec_ldm x s) rfl fun hm => .ldmMem (dataFits_false hm).2
  | skp x => exact .of_guarded h (exec_skp x s) rfl fun hk => .skpKey (by simpa using hk)
  | sknp x => exact .of_guarded h (exec_sknp x s) rfl fun hk => .sknpKey (by simpa using hk)
  | _ => exact .inl (exec_onlyWrites h .fault (by simp [Instr.writes]))

/-! ## The faults of one step -/

/-- The step from `s` raises that fault: at the fetch, at the decoding, or in the instruction (R123). -/
inductive StepRaises (s : State) : FaultRecord → Prop where
  | fetch : s.Running → 0xFFE < s.pc.toNat → StepRaises s (.outOfRange .fetch)
  | decode {w : Word} : s.Running → s.fetchWord = some w → IllegalWord w → StepRaises s (.decodeError w)
  | exec {i : Instr} {f : FaultRecord} : s.Fetches i → Raises s i f → StepRaises s f

theorem StepRaises.step_eq {s : State} {f : FaultRecord} (h : StepRaises s f) : step s = raise f s := by
  cases h with
  | fetch hr hpc => exact step_fetch_fault hr (State.fetchWord_none.mpr hpc)
  | decode hr hw hill =>
    obtain ⟨e, hd⟩ := decodeWord_rejects_iff.mpr hill
    exact step_decode_fault hr hw hd
  | exec hi hf => exact hi.step_eq.trans hf.exec_eq

/-- A step leaves the latch, or raises a fault and changes nothing else (R124). -/
theorem step_fault_cases {s t : State} (h : step s = .next t) :
    t.fault = s.fault ∨ ∃ f, StepRaises s f ∧ t = { s with fault := some f } := by
  obtain ⟨-, he⟩ | ⟨-, he⟩ | ⟨hr, hw, he⟩ | ⟨w, e, hr, hw, hd, he⟩ | ⟨w, i, hr, hw, hd, he⟩ :=
    step_cases s <;> rw [he] at h
  · cases h
    exact .inl rfl
  · cases h
    exact .inl (OnlyWrites.waitStep s .fault (by simp))
  · exact .inr ⟨_, .fetch hr (State.fetchWord_none.mp hw), raise_next h⟩
  · exact .inr ⟨_, .decode hr hw (decodeWord_rejects_iff.mp ⟨e, hd⟩), raise_next h⟩
  · exact (exec_leavesOrRaises h).imp_right fun ⟨f, hf, ht⟩ => ⟨f, .exec ⟨hr, w, hw, hd⟩ hf, ht⟩

/-- Settles O12. -/
theorem faultsArePrecise : Obligations.FaultsArePrecise := by
  intro s t hs h ht
  obtain hf | ⟨f, -, rfl⟩ := step_fault_cases h
  · exact absurd (hf.trans hs) ht
  · rfl

/-- The latch after a step that began without a fault holds exactly the fault the step raised. -/
theorem step_fault_iff {s t : State} (hs : s.fault = none) (h : step s = .next t) (f : FaultRecord) :
    t.fault = some f ↔ StepRaises s f := by
  constructor
  · intro ht
    obtain hf | ⟨g, hg, rfl⟩ := step_fault_cases h
    · simp [hf, hs] at ht
    · cases ht
      exact hg
  · intro hf
    rw [raise_next (hf.step_eq.symm.trans h)]

/-! ## The causes of each fault (R122) -/

theorem stepRaises_fetch_iff {s : State} : StepRaises s (.outOfRange .fetch) ↔ s.Running ∧ 0xFFE < s.pc.toNat :=
  ⟨fun | .fetch hr hpc => ⟨hr, hpc⟩, fun ⟨hr, hpc⟩ => .fetch hr hpc⟩

theorem stepRaises_decode_iff {s : State} {w : Word} :
    StepRaises s (.decodeError w) ↔ s.Running ∧ s.fetchWord = some w ∧ IllegalWord w :=
  ⟨fun | .decode hr hw hill => ⟨hr, hw, hill⟩, fun ⟨hr, hw, hill⟩ => .decode hr hw hill⟩

theorem stepRaises_overflow_iff {s : State} :
    StepRaises s .stackOverflow ↔ ∃ nnn, s.Fetches (.call nnn) ∧ s.sp.val = 16 :=
  ⟨fun | .exec hi (.callFull hsp) => ⟨_, hi, hsp⟩, fun ⟨_, hi, hsp⟩ => .exec hi (.callFull hsp)⟩

theorem stepRaises_underflow_iff {s : State} : StepRaises s .stackUnderflow ↔ s.Fetches .ret ∧ s.sp.val = 0 :=
  ⟨fun | .exec hi (.retEmpty hsp) => ⟨hi, hsp⟩, fun ⟨hi, hsp⟩ => .exec hi (.retEmpty hsp)⟩

theorem stepRaises_mem_iff {s : State} :
    StepRaises s (.outOfRange .mem) ↔
      (∃ x y n, s.Fetches (.drw x y n) ∧ 1 ≤ n.val ∧ 0xFFF < s.i.toNat + n.val - 1) ∨
      (∃ x, s.Fetches (.bcd x) ∧ 0xFFF < s.i.toNat + 2) ∨
      (∃ x, (s.Fetches (.stm x) ∨ s.Fetches (.ldm x)) ∧ 0xFFF < s.i.toNat + x.val) := by
  constructor
  · intro
    | .exec hi (.drawMem hn hm) => exact .inl ⟨_, _, _, hi, hn, hm⟩
    | .exec hi (.bcdMem hm) => exact .inr (.inl ⟨_, hi, hm⟩)
    | .exec hi (.stmMem hm) => exact .inr (.inr ⟨_, .inl hi, hm⟩)
    | .exec hi (.ldmMem hm) => exact .inr (.inr ⟨_, .inr hi, hm⟩)
  · rintro (⟨x, y, n, hi, hn, hm⟩ | ⟨x, hi, hm⟩ | ⟨x, hi | hi, hm⟩)
    · exact .exec hi (.drawMem hn hm)
    · exact .exec hi (.bcdMem hm)
    · exact .exec hi (.stmMem hm)
    · exact .exec hi (.ldmMem hm)

theorem stepRaises_pixel_iff {s : State} :
    StepRaises s (.outOfRange .pixel) ↔
      ∃ x y n, s.Fetches (.drw x y n) ∧ 1 ≤ n.val ∧ s.i.toNat + n.val - 1 ≤ 0xFFF ∧
        (56 < (s.readV x).toNat ∨ 32 < (s.readV y).toNat + n.val) :=
  ⟨fun | .exec hi (.drawPixel hn hm hoff) => ⟨_, _, _, hi, hn, hm, hoff⟩,
    fun ⟨_, _, _, hi, hn, hm, hoff⟩ => .exec hi (.drawPixel hn hm hoff)⟩

theorem stepRaises_key_iff {s : State} :
    StepRaises s (.outOfRange .key) ↔ ∃ x, (s.Fetches (.skp x) ∨ s.Fetches (.sknp x)) ∧ 15 < (s.readV x).toNat := by
  constructor
  · intro
    | .exec hi (.skpKey hk) => exact ⟨_, .inl hi, hk⟩
    | .exec hi (.sknpKey hk) => exact ⟨_, .inr hi, hk⟩
  · rintro ⟨x, hi | hi, hk⟩
    · exact .exec hi (.skpKey hk)
    · exact .exec hi (.sknpKey hk)

/-- Settles O13: the latch holds what the step raised, and each fault has the causes of its own lemma. -/
theorem faultCausesExactly : Obligations.FaultCausesExactly := by
  intro s t hs h
  simp only [step_fault_iff hs h]
  exact ⟨stepRaises_fetch_iff, fun _ => stepRaises_decode_iff, stepRaises_overflow_iff, stepRaises_underflow_iff,
    stepRaises_mem_iff, stepRaises_pixel_iff, stepRaises_key_iff⟩

/-- Settles O14. -/
theorem faultCodesAsListed : Obligations.FaultCodesAsListed :=
  ⟨rfl, fun _ => rfl, rfl, rfl, fun _ => rfl, rfl, rfl, rfl, rfl⟩

end Sys2Proof.Machine
end

section
/-! PROOFS. The sound timer has no effect (spec/60_exceptions.md R132): the simulation between two states that
differ in `ST` alone, event by event. -/

namespace Sys2Proof.Machine

/-- The state with another sound timer. -/
def State.withSt (s : State) (b : Byte) : State := { s with st := b }

theorem sameButSt_withSt (s : State) (b : Byte) : SameButSt s (s.withSt b) := rfl

/-- The two states agree on everything but `ST`: the second is the first with another `ST`. -/
theorem sameButSt_iff {s s' : State} : SameButSt s s' ↔ ∃ b, s' = s.withSt b := by
  constructor
  · exact fun h => ⟨s'.st, h⟩
  · rintro ⟨b, rfl⟩
    exact sameButSt_withSt s b

/-! ## Instructions -/

theorem guarded_withSt {ok : Bool} {r : FaultRecord} {s t u : State} (b : Byte)
    (h : guarded ok r s u = .next t) : guarded ok r (s.withSt b) (u.withSt b) = .next (t.withSt b) := by
  cases ok <;> cases h <;> rfl

/-- An instruction that does not write `ST` does not read it either: it does the same whatever it is. -/
theorem exec_withSt {i : Instr} {s t : State} (b : Byte) (hst : .st ∉ i.writes) (h : exec i s = .next t) :
    exec i (s.withSt b) = .next (t.withSt b) := by
  cases i with
  | stst _ => simp [Instr.writes] at hst
  | ret =>
    by_cases hsp : s.sp.val = 0
    · rw [exec_ret_empty hsp] at h
      cases h
      exact exec_ret_empty (s := s.withSt b) hsp
    · rw [exec_ret_pop hsp] at h
      cases h
      exact exec_ret_pop (s := s.withSt b) hsp
  | call nnn =>
    by_cases hsp : s.sp.val < 16
    · rw [exec_call_push nnn hsp] at h
      cases h
      exact exec_call_push (s := s.withSt b) nnn hsp
    · have hfull : s.sp.val = 16 := by omega
      rw [exec_call_full nnn hfull] at h
      cases h
      exact exec_call_full (s := s.withSt b) nnn hfull
  | skp x => exact (exec_skp x _).trans (guarded_withSt b (exec_skp x s ▸ h))
  | sknp x => exact (exec_sknp x _).trans (guarded_withSt b (exec_sknp x s ▸ h))
  | drw x y n => exact (exec_drw x y n _).trans (guarded_withSt b (exec_drw x y n s ▸ h))
  | bcd x => exact (exec_bcd x _).trans (guarded_withSt b (exec_bcd x s ▸ h))
  | stm x => exact (exec_stm x _).trans (guarded_withSt b (exec_stm x s ▸ h))
  | ldm x => exact (exec_ldm x _).trans (guarded_withSt b (exec_ldm x s ▸ h))
  | _ =>
    cases h
    rfl

/-- `Fx18` leaves no difference at all: it writes the same register into both (R110). -/
theorem exec_sameButSt {i : Instr} {s s' t : State} (hs : SameButSt s s') (h : exec i s = .next t) :
    ∃ t', exec i s' = .next t' ∧ SameButSt t t' := by
  obtain ⟨b, rfl⟩ := sameButSt_iff.mp hs
  by_cases hst : Field.st ∈ i.writes
  · obtain ⟨x, rfl⟩ := Instr.mem_writes_st.mp hst
    cases h
    exact ⟨_, rfl, rfl⟩
  · exact ⟨_, exec_withSt b hst h, sameButSt_withSt t b⟩

/-! ## Steps, events and schedules -/

theorem waitStep_withSt (s : State) (b : Byte) : waitStep (s.withSt b) = (waitStep s).withSt b := by
  by_cases hk : s.keys = 0
  · rw [waitStep_idle hk, waitStep_idle (s := s.withSt b) hk]
  · rw [waitStep_load hk, waitStep_load (s := s.withSt b) hk]
    rfl

/-- The two states take the same branch of the step: the branch does not depend on `ST`. -/
theorem step_sameButSt {s s' t : State} (hs : SameButSt s s') (h : step s = .next t) :
    ∃ t', step s' = .next t' ∧ SameButSt t t' := by
  obtain ⟨b, rfl⟩ := sameButSt_iff.mp hs
  obtain ⟨hf, he⟩ | ⟨ha, he⟩ | ⟨hr, hw, he⟩ | ⟨w, e, hr, hw, hd, he⟩ | ⟨w, i, hr, hw, hd, he⟩ :=
    step_cases s <;> rw [he] at h
  · cases h
    exact ⟨_, step_faulted (s := s.withSt b) hf, hs⟩
  · cases h
    exact ⟨_, step_awaiting (s := s.withSt b) ha, waitStep_withSt s b ▸ sameButSt_withSt _ b⟩
  · cases h
    exact ⟨_, step_fetch_fault (s := s.withSt b) hr hw, rfl⟩
  · cases h
    exact ⟨_, step_decode_fault (s := s.withSt b) hr hw hd, rfl⟩
  · rw [step_decoded (s := s.withSt b) hr hw hd]
    exact exec_sameButSt hs h

theorem hostLoad_sameButSt (p : List Byte) {s s' : State} (hs : SameButSt s s') :
    SameButSt (hostLoad p s).1 (hostLoad p s').1 := by
  obtain ⟨b, rfl⟩ := sameButSt_iff.mp hs
  unfold hostLoad
  split <;> rfl

theorem applyEvent_sameButSt {e : Event} {s s' t : State} (hs : SameButSt s s') (h : applyEvent e s = .next t) :
    ∃ t', applyEvent e s' = .next t' ∧ SameButSt t t' := by
  cases e with
  | step => exact step_sameButSt hs h
  | load p =>
    cases h
    exact ⟨_, rfl, hostLoad_sameButSt p hs⟩
  | keyWrite _ | timerTick | reset =>
    obtain ⟨b, rfl⟩ := sameButSt_iff.mp hs
    cases h
    exact ⟨_, rfl, rfl⟩

/-- A relation between two states that every event keeps is kept by every schedule (R38). -/
theorem runEvents_simulation {R : State → State → Prop}
    (hR : ∀ {e : Event} {s s' t : State}, R s s' → applyEvent e s = .next t →
      ∃ t', applyEvent e s' = .next t' ∧ R t t')
    (es : List Event) {s s' t : State} (hs : R s s') (h : runEvents es s = .next t) :
    ∃ t', runEvents es s' = .next t' ∧ R t t' := by
  induction es generalizing s s' with
  | nil =>
    cases h
    exact ⟨s', rfl, hs⟩
  | cons e es ih =>
    obtain ⟨u, he, hrun⟩ := runEvents_cons.mp h
    obtain ⟨u', he', hu⟩ := hR hs he
    obtain ⟨t', hrun', ht⟩ := ih hu hrun
    exact ⟨t', runEvents_cons.mpr ⟨u', he', hrun'⟩, ht⟩

/-- Settles O23. -/
theorem soundTimerHasNoEffect : Obligations.SoundTimerHasNoEffect :=
  fun es _ _ _ => runEvents_simulation applyEvent_sameButSt es

end Sys2Proof.Machine
end

section
/-! PROOFS. The external agents (spec/60_exceptions.md R125, R131 to R133): what each of their moves writes, in a
Faulted core too, and that none of them raises `DT`. -/

namespace Sys2Proof.Machine

/-- `Load` writes memory and `pc` alone, whether it takes the image or rejects it (R141, R142). -/
theorem OnlyWrites.hostLoad (p : List Byte) (s : State) : OnlyWrites [.mem, .pc] s (hostLoad p s).1 := by
  unfold Machine.hostLoad
  split
  · exact fun f _ => .refl f s
  · exact (withMem s (Memory.writeBytes [] Config.progBase p)).trans (setPc _ 0x200)

/-- Settles O22: the core raises `DT` only by `Fx15`, and of the agents only two write it, the tick that lowers it
and `Reset` that clears it. -/
theorem delayTimerFallsBetweenWrites : Obligations.DelayTimerFallsBetweenWrites := by
  intro e s t hne h
  cases e with
  | step =>
    obtain ⟨-, hdt, -⟩ := coreLeavesKeysAndTimers s t h
    have hkept : t.dt = s.dt := by
      by_contra hc
      obtain ⟨x, hx⟩ := hdt hc
      exact hne rfl x hx
    exact (congrArg BitVec.toNat hkept).le
  | keyWrite m =>
    cases h
    exact le_rfl
  | timerTick =>
    cases h
    exact (tickDown_toNat s.dt).trans_le (Nat.sub_le _ _)
  | load p =>
    cases h
    have hkept : (hostLoad p s).1.dt = s.dt := OnlyWrites.hostLoad p s .dt (by simp)
    exact (congrArg BitVec.toNat hkept).le
  | reset =>
    cases h
    exact Nat.zero_le _

/-- Settles O9: the latch is not among what `Load`, `KeyWrite` and `TimerTick` write. -/
theorem faultedCoreDoesNothing : Obligations.FaultedCoreDoesNothing := fun s h =>
  ⟨step_faulted h, hostReset_atReset s, fun p => OnlyWrites.hostLoad p s .fault (by simp), fun _ => ⟨rfl, rfl⟩,
    tickDown_toNat s.dt, tickDown_toNat s.st, rfl⟩

/-- Settles O29. -/
theorem timerTickLowersBoth : Obligations.TimerTickLowersBoth := fun s =>
  ⟨_, rfl, tickDown_toNat s.dt, tickDown_toNat s.st, (OnlyWrites.timerTick s).onlyChanges⟩

/-- Settles O30. -/
theorem keyWriteSetsKeys : Obligations.KeyWriteSetsKeys := fun m s =>
  ⟨_, rfl, rfl, (OnlyWrites.keyWrite m s).onlyChanges⟩

end Sys2Proof.Machine
end

section
/-! PROOFS. Every state answers a next state (spec/93_implementation_defined.md), and a property that every event
of a schedule keeps holds at its end (spec/20_memory.md R38). -/

namespace Sys2Proof.Machine

/-! ## Instructions, steps and events -/

/-- A checked instruction answers in both cases: a fault of the spec is a next state (R124). -/
theorem guarded_answers (ok : Bool) (f : FaultRecord) (s u : State) : ∃ t, guarded ok f s u = .next t := by
  cases ok <;> exact ⟨_, rfl⟩

theorem exec_answers (i : Instr) (s : State) : ∃ t, exec i s = .next t := by
  cases i with
  | ret =>
    by_cases h : s.sp.val = 0
    · exact ⟨_, exec_ret_empty h⟩
    · exact ⟨_, exec_ret_pop h⟩
  | call nnn =>
    by_cases h : s.sp.val < 16
    · exact ⟨_, exec_call_push nnn h⟩
    · exact ⟨_, exec_call_full nnn (by omega)⟩
  | drw x y n => exact exec_drw x y n s ▸ guarded_answers ..
  | skp x => exact exec_skp x s ▸ guarded_answers ..
  | sknp x => exact exec_sknp x s ▸ guarded_answers ..
  | bcd x => exact exec_bcd x s ▸ guarded_answers ..
  | stm x => exact exec_stm x s ▸ guarded_answers ..
  | ldm x => exact exec_ldm x s ▸ guarded_answers ..
  | _ => exact ⟨_, rfl⟩

theorem step_answers (s : State) : ∃ t, step s = .next t := by
  obtain ⟨-, he⟩ | ⟨-, he⟩ | ⟨-, -, he⟩ | ⟨w, e, -, -, -, he⟩ | ⟨w, i, -, -, -, he⟩ := step_cases s
  · exact ⟨_, he⟩
  · exact ⟨_, he⟩
  · exact ⟨_, he⟩
  · exact ⟨_, he⟩
  · exact he ▸ exec_answers i s

/-- Only the core's step has to be looked into: each agent's move is a next state as it stands. -/
theorem applyEvent_answers (e : Event) (s : State) : ∃ t, applyEvent e s = .next t := by
  cases e with
  | step => exact step_answers s
  | keyWrite _ | timerTick | load _ | reset => exact ⟨_, rfl⟩

/-! ## Schedules -/

/-- A schedule runs to its end, and keeps a property there, if each of its events answers and keeps it. -/
theorem runEvents_keeps {P : State → Prop} {es : List Event}
    (hP : ∀ e ∈ es, ∀ s, P s → ∃ t, applyEvent e s = .next t ∧ P t) {s : State} (hs : P s) :
    ∃ t, runEvents es s = .next t ∧ P t := by
  induction es generalizing s with
  | nil => exact ⟨s, rfl, hs⟩
  | cons e es ih =>
    obtain ⟨hhead, htail⟩ := List.forall_mem_cons.mp hP
    obtain ⟨u, he, hu⟩ := hhead s hs
    obtain ⟨t, hrun, ht⟩ := ih htail hu
    exact ⟨t, runEvents_cons.mpr ⟨u, he, hrun⟩, ht⟩

/-- Settles O11: every event answers, so every schedule does. -/
theorem everyScheduleAnswersNext : Obligations.EveryScheduleAnswersNext := by
  refine ⟨step_answers, fun es s => ?_⟩
  have hanswers : ∀ e ∈ es, ∀ s, True → ∃ t, applyEvent e s = .next t ∧ True :=
    fun e _ s _ => (applyEvent_answers e s).imp fun _ he => ⟨he, trivial⟩
  obtain ⟨t, hrun, -⟩ := runEvents_keeps hanswers (s := s) trivial
  exact ⟨t, hrun⟩

end Sys2Proof.Machine
end

section
/-! PROOFS. Reset, load and the parked core (spec/70_reset_and_hazards.md R140 to R142, R150). -/

namespace Sys2Proof.Machine

/-! ## The parked core (R150) -/

/-- An address of at most 12 bits, cut to them and extended again, is the address (R49). -/
theorem addrWord_setWidth {w : Word} (h : w.toNat ≤ 0xFFF) : addrWord (w.setWidth 12) = w := by
  refine BitVec.eq_of_toNat_eq ?_
  rw [toNat_addrWord, BitVec.toNat_setWidth, Nat.mod_eq_of_lt (by omega)]

/-- The word of format NNN as a number: the opcode above the 12 bits of the address (R48). -/
theorem toNat_encNNN (op : BitVec 4) (nnn : Addr12) : (encNNN op nnn).toNat = op.toNat * 4096 + nnn.toNat := by
  have happend : encNNN op nnn = op ++ nnn := by
    rw [BitVec.append_def, BitVec.shiftLeftZeroExtend_eq, BitVec.setWidth'_eq, encNNN]
  rw [happend, BitVec.toNat_append, ← Nat.shiftLeft_add_eq_or_of_lt nnn.isLt, Nat.shiftLeft_eq]

/-- A parked core fetches the jump to its own `pc`. -/
theorem State.Parked.fetches {s : State} (h : s.Parked) : s.Fetches (.jp (s.pc.setWidth 12)) := by
  obtain ⟨hr, hpc, hw⟩ := h
  refine ⟨hr, _, hw, decodeWord_eq_ok_iff.mpr (BitVec.eq_of_toNat_eq ?_)⟩
  rw [encode, toNat_encNNN, ← toNat_addrWord, addrWord_setWidth (by omega)]
  bv_omega

/-- The jump of a parked core writes to `pc` the value it has. -/
theorem State.Parked.step_eq {s : State} (h : s.Parked) : step s = .next s := by
  have hpc : s.pc.toNat ≤ 0xFFE := h.fetches.pc_le
  rw [h.fetches.step_eq, exec, execJp, addrWord_setWidth (by omega)]
  rfl

/-- Whether a core is parked does not depend on what KeyInput and TimerClock write. -/
theorem State.Parked.of_onlyWrites {s t : State} (h : s.Parked) (ht : OnlyWrites [.keys, .dt, .st] s t) :
    t.Parked := by
  have hpc : t.pc = s.pc := ht .pc (by simp)
  have hmem : t.mem = s.mem := ht .mem (by simp)
  have hfault : t.fault = s.fault := ht .fault (by simp)
  have hwait : t.wait = s.wait := ht .wait (by simp)
  simpa only [Parked, Running, fetchWord, hpc, hmem, hfault, hwait] using h

/-- In a parked core every event but `Load` and `Reset` writes at most `KEYS` and the timers. -/
theorem applyEvent_parked {e : Event} {s : State} (h : s.Parked) (he : e ≠ .reset ∧ ∀ p, e ≠ .load p) :
    ∃ t, applyEvent e s = .next t ∧ OnlyWrites [.keys, .dt, .st] s t := by
  cases e with
  | step => exact ⟨s, h.step_eq, fun f _ => .refl f s⟩
  | keyWrite m => exact ⟨_, rfl, (OnlyWrites.keyWrite m s).mono (by simp)⟩
  | timerTick => exact ⟨_, rfl, (OnlyWrites.timerTick s).mono (by simp)⟩
  | load p => exact absurd rfl (he.2 p)
  | reset => exact absurd rfl he.1

/-- Settles O25: what a schedule has written since `s` is an invariant, and it keeps the core parked. -/
theorem parkedStaysParked : Obligations.ParkedStaysParked := by
  refine ⟨fun s h => h.step_eq, fun es s h hes => ?_⟩
  have hkeeps : ∀ e ∈ es, ∀ u, OnlyWrites [.keys, .dt, .st] s u →
      ∃ t, applyEvent e u = .next t ∧ OnlyWrites [.keys, .dt, .st] s t := by
    intro e he u hu
    obtain ⟨t, hevent, ht⟩ := applyEvent_parked (h.of_onlyWrites hu) (hes e he)
    exact ⟨t, hevent, (hu.trans ht).mono (by simp)⟩
  obtain ⟨t, hrun, ht⟩ := runEvents_keeps hkeeps fun f _ => .refl f s
  exact ⟨t, hrun, h.of_onlyWrites ht, ht.onlyChanges⟩

/-! ## Reset and load (R140 to R142) -/

/-- After `Reset` the word at `pc` is 0x0000: memory is all zero (R27, R140). -/
theorem fetchWord_hostReset (s : State) : (hostReset s).fetchWord = some 0x0000 := by
  have hreset : (hostReset s).fetchWord = State.reset.fetchWord := rfl
  exact hreset.trans (by decide)

/-- Settles O27: 0x0000 is an illegal word. -/
theorem resetUnloadedFaults : Obligations.ResetUnloadedFaults := by
  intro s
  have hillegal : decodeWord 0x0000 = .error (.family0 0x0000) := rfl
  exact step_decode_fault ⟨rfl, rfl⟩ (fetchWord_hostReset s) hillegal

/-- An image that fits is accepted (R141). -/
theorem hostLoad_fits {p : List Byte} (s : State) (h : p.length ≤ 3584) :
    hostLoad p s = ({ s with mem := Memory.writeBytes [] 0x200 p, pc := 0x200 }, .loaded) :=
  if_neg (Nat.not_lt.mpr h)

/-- An image that does not fit is rejected (R142). -/
theorem hostLoad_too_long {p : List Byte} (s : State) (h : 3584 < p.length) :
    hostLoad p s = (s, .loadRejected) := if_pos h

/-- Settles O28: the image is a block stored into empty memory. -/
theorem loadPlacesImage : Obligations.LoadPlacesImage := by
  refine fun p s => ⟨fun hfits => ⟨?_, ?_, fun a => ?_, (OnlyWrites.hostLoad p s).onlyChanges⟩, hostLoad_too_long s⟩
  · rw [hostLoad_fits s hfits]
  · rw [hostLoad_fits s hfits]
  · rw [hostLoad_fits s hfits]
    exact Memory.read_writeBytes p [] 0x200 a

end Sys2Proof.Machine
end
